-- ==== Sys2Proof/Word.lean ====
section
/-! DEFINITION. The bit-pattern types of the block (00_scope.md R7, R11). -/

namespace Sys2Proof

/-- A byte: a payload byte, a checksum byte, `ACC` (10_state.md R22). -/
abbrev Byte := BitVec 8

/-- A 16-bit pattern: a binary16 pattern, a payload word, `CNT` (00_scope.md R11, 10_state.md R22). -/
abbrev Half := BitVec 16

/-- A 32-bit pattern: a command word, a register, a binary32 pattern (00_scope.md R9, R11). -/
abbrev Word := BitVec 32

end Sys2Proof
end

