-- ==== Sys2Proof/Syntax.lean ====
section
/-! DEFINITION. The nine commands of the block (30_encoding.md R62), their operand forms (R61) and the error
codes' names (60_exceptions.md R120). -/

namespace Sys2Proof

/-- One constructor per row of spec/opcode_table.json, with the row's operand (30_encoding.md R61). -/
inductive Instr where
  /-- `CVT.H2S #h` (40_convert.md R80). -/
  | cvtH2s (h : Half)
  /-- `CVT.S2H` (40_convert.md R83); the operand is the register `ARG`. -/
  | cvtS2h
  /-- `CK.CLR` (41_checksum.md R90). -/
  | ckClr
  /-- `CK.ACC #b` (41_checksum.md R91). -/
  | ckAcc (b : Byte)
  /-- `CK.CMP #c` (41_checksum.md R92). -/
  | ckCmp (c : Byte)
  /-- `PL.START` (42_stream.md R101). -/
  | plStart
  /-- `PL.BYTE #b` (42_stream.md R102). -/
  | plByte (b : Byte)
  /-- `PL.END #c` (42_stream.md R103). -/
  | plEnd (c : Byte)
  /-- `ST.CLR` (43_status.md R110). -/
  | stClr
  deriving DecidableEq, Repr

/-- The nine opcodes that spell a command (30_encoding.md R62). -/
inductive Opcode where
  | cvtH2s | cvtS2h | ckClr | ckAcc | ckCmp | plStart | plByte | plEnd | stClr
  deriving DecidableEq, Repr

/-- The operand forms (30_encoding.md R61); `noImm` is the spec's `NONE`. -/
inductive Form where
  | h16
  | b8
  | noImm
  deriving DecidableEq, Repr

/-- The errors a command can raise (60_exceptions.md R120): the argument of `raise CmdError` (00_scope.md R10). -/
inductive CmdError where
  /-- `ILLOP`: the opcode spells no command (R121). -/
  | illop
  /-- `RSVBITS`: a reserved or unused bit of the word is not 0 (R122). -/
  | rsvbits
  /-- `NAN`: the operand of the narrowing is a NaN (R123). -/
  | nan
  deriving DecidableEq, Repr

/-- The opcode of a command. -/
def Instr.opcode : Instr → Opcode
  | .cvtH2s _ => .cvtH2s
  | .cvtS2h   => .cvtS2h
  | .ckClr    => .ckClr
  | .ckAcc _  => .ckAcc
  | .ckCmp _  => .ckCmp
  | .plStart  => .plStart
  | .plByte _ => .plByte
  | .plEnd _  => .plEnd
  | .stClr    => .stClr

/-- The spec's mnemonic of a command (30_encoding.md R62, R67). -/
def Opcode.mnemonic : Opcode → String
  | .cvtH2s  => "CVT.H2S"
  | .cvtS2h  => "CVT.S2H"
  | .ckClr   => "CK.CLR"
  | .ckAcc   => "CK.ACC"
  | .ckCmp   => "CK.CMP"
  | .plStart => "PL.START"
  | .plByte  => "PL.BYTE"
  | .plEnd   => "PL.END"
  | .stClr   => "ST.CLR"

end Sys2Proof
end

