-- ==== Sys2Proof/Decode.lean ====
section
/-! DEFINITION. The decoder of 30_encoding.md R65, the encoder of R67, and the opcode table of R62. -/

namespace Sys2Proof

/-! ### Fields (30_encoding.md R60) -/

/-- `OP`, bits [31:28]. -/
def opField (v : Word) : BitVec 4 := v.extractLsb' 28 4

/-- `RSV`, bits [27:16]. -/
def rsvField (v : Word) : BitVec 12 := v.extractLsb' 16 12

/-- `IMM`, bits [15:0]. -/
def immField (v : Word) : Half := v.extractLsb' 0 16

/-- `IMM[15:8]`. -/
def immHi (v : Word) : Byte := v.extractLsb' 8 8

/-- `IMM[7:0]`. -/
def immLo (v : Word) : Byte := v.extractLsb' 0 8

/-! ### Decoding -/

/-- The opcode map (30_encoding.md R62): which command, if any, a value of `OP` spells.
`0x2` spells one only where `HAS_S2H` is true (R63). -/
def opcodeOf (hasS2h : Bool) (op : BitVec 4) : Option Opcode :=
  match op.toNat with
  | 0x1 => some .cvtH2s
  | 0x2 => if hasS2h then some .cvtS2h else none
  | 0x3 => some .ckClr
  | 0x4 => some .ckAcc
  | 0x5 => some .ckCmp
  | 0x6 => some .plStart
  | 0x7 => some .plByte
  | 0x8 => some .plEnd
  | 0x9 => some .stClr
  | _   => none

/-- The operand form of each command (30_encoding.md R62). -/
def Opcode.form : Opcode → Form
  | .cvtH2s  => .h16
  | .cvtS2h  => .noImm
  | .ckClr   => .noImm
  | .ckAcc   => .b8
  | .ckCmp   => .b8
  | .plStart => .noImm
  | .plByte  => .b8
  | .plEnd   => .b8
  | .stClr   => .noImm

/-- The bits of `IMM` that a form does not use are 0 (30_encoding.md R61, R64). -/
def Form.immOk : Form → Word → Bool
  | .h16,   _ => true
  | .b8,    v => immHi v == 0
  | .noImm, v => immField v == 0

/-- The command with its operand taken from `IMM` (30_encoding.md R65, the `case op of`). -/
def Opcode.instr : Opcode → Word → Instr
  | .cvtH2s,  v => .cvtH2s (immField v)
  | .cvtS2h,  _ => .cvtS2h
  | .ckClr,   _ => .ckClr
  | .ckAcc,   v => .ckAcc (immLo v)
  | .ckCmp,   v => .ckCmp (immLo v)
  | .plStart, _ => .plStart
  | .plByte,  v => .plByte (immLo v)
  | .plEnd,   v => .plEnd (immLo v)
  | .stClr,   _ => .stClr

/-- Decoding a command word (30_encoding.md R65): every word selects one command or raises one error,
and `ILLOP` comes before `RSVBITS` (60_exceptions.md R125). -/
def decode (hasS2h : Bool) (v : Word) : Except CmdError Instr :=
  match opcodeOf hasS2h (opField v) with
  | none => .error .illop
  | some op =>
    if rsvField v = 0 ∧ op.form.immOk v = true then .ok (op.instr v) else .error .rsvbits

/-! ### Encoding -/

/-- `match(M)` of each command (30_encoding.md R62). -/
def Opcode.matchBits : Opcode → Word
  | .cvtH2s  => 0x10000000
  | .cvtS2h  => 0x20000000
  | .ckClr   => 0x30000000
  | .ckAcc   => 0x40000000
  | .ckCmp   => 0x50000000
  | .plStart => 0x60000000
  | .plByte  => 0x70000000
  | .plEnd   => 0x80000000
  | .stClr   => 0x90000000

/-- The mask of each command (30_encoding.md R62). -/
def Opcode.mask : Opcode → Word
  | .cvtH2s  => 0xFFFF0000
  | .cvtS2h  => 0xFFFFFFFF
  | .ckClr   => 0xFFFFFFFF
  | .ckAcc   => 0xFFFFFF00
  | .ckCmp   => 0xFFFFFF00
  | .plStart => 0xFFFFFFFF
  | .plByte  => 0xFFFFFF00
  | .plEnd   => 0xFFFFFF00
  | .stClr   => 0xFFFFFFFF

/-- A word encodes a command when `(v & mask) == match` (30_encoding.md R62). -/
def Opcode.encodedBy (op : Opcode) (v : Word) : Bool := v &&& op.mask == op.matchBits

/-- The rows of the opcode map (30_encoding.md R62). -/
def opcodes : List Opcode :=
  [.cvtH2s, .cvtS2h, .ckClr, .ckAcc, .ckCmp, .plStart, .plByte, .plEnd, .stClr]

/-- The immediate of a command, in place in the word (30_encoding.md R61). -/
def Instr.immBits : Instr → Word
  | .cvtH2s h => h.zeroExtend 32
  | .cvtS2h   => 0
  | .ckClr    => 0
  | .ckAcc b  => b.zeroExtend 32
  | .ckCmp c  => c.zeroExtend 32
  | .plStart  => 0
  | .plByte b => b.zeroExtend 32
  | .plEnd c  => c.zeroExtend 32
  | .stClr    => 0

/-- `enc(M #imm) = match(M) | imm` (30_encoding.md R67). -/
def encode (i : Instr) : Word := i.opcode.matchBits ||| i.immBits

/-! ### The host's view of the opcode table -/

/-- The command the decoder reads from a table word. The table lists `CVT.S2H`, so this is the decoder of a
block that has it (log 10). Every command is exactly 32 bits (30_encoding.md R66). -/
def decodeTableWord (nbits w : Nat) : Option Instr :=
  if w % 2 ^ nbits < 2 ^ 32 then
    match decode true (BitVec.ofNat 32 (w % 2 ^ nbits)) with
    | .ok i    => some i
    | .error _ => none
  else none

end Sys2Proof
end

