-- ==== Sys2Proof/Config.lean ====
section
/-! DEFINITION. The implementation parameters of 00_scope.md R6: what a platform fixes, and no step changes. -/

namespace Sys2Proof

/-- `H2S_EDGE`: how the widening treats subnormal and NaN inputs (40_convert.md R81, R82). -/
inductive H2sEdge where
  | literal
  | ieee
  deriving DecidableEq, Repr

/-- `S2H_ZERO`: what the narrowing gives for ±0.0 (40_convert.md R84). -/
inductive S2hZero where
  | zero
  | flush
  deriving DecidableEq, Repr

/-- `S2H_INF`: what the narrowing gives for ±infinity (40_convert.md R84). -/
inductive S2hInf where
  | clamp
  | inf
  deriving DecidableEq, Repr

/-- The parameters of one block instance (00_scope.md R6; `NUM_INSTANCES` is `PlatformConfig`'s).
A claim about the block quantifies over them, since `State.cfg` holds them (log 1). -/
structure Config where
  /-- `BASE`: the bus address of register offset 0x00. Bus addresses are natural numbers (log 8). -/
  base    : Nat
  /-- `HAS_S2H`: whether `CVT.S2H` exists. -/
  hasS2h  : Bool
  h2sEdge : H2sEdge
  s2hZero : S2hZero
  s2hInf  : S2hInf
  /-- `S2H_TINY`: the magnitude pattern below which the narrowing flushes. -/
  s2hTiny : BitVec 31
  deriving DecidableEq, Repr

/-- The defaults of 00_scope.md R6. DESIGN CHOICE (log 1): `BASE`, which the spec leaves OPEN, is 0. -/
def Config.default : Config where
  base    := 0
  hasS2h  := false
  h2sEdge := .literal
  s2hZero := .zero
  s2hInf  := .clamp
  s2hTiny := 0x33800000

/-- A platform's parameters: one `Config` for each of its `NUM_INSTANCES` instances
(00_scope.md R6, 60_exceptions.md R134; log 11). -/
structure PlatformConfig where
  instances : List Config
  deriving DecidableEq, Repr

/-- `NUM_INSTANCES` (00_scope.md R6). -/
def PlatformConfig.numInstances (p : PlatformConfig) : Nat := p.instances.length

/-- The default platform: one instance (00_scope.md R6). -/
def PlatformConfig.default : PlatformConfig := ⟨[.default]⟩

end Sys2Proof
end

