-- ==== Sys2Proof/Machine/State.lean ====
section
/-! DEFINITION. The state of one block instance (10_state.md R22), the events that reach it, and its reset state (R32). -/

namespace Sys2Proof.Machine

/-- The width of a bus access (20_memory.md R42, R43). -/
inductive Width where
  | w8 | w16 | w32 | w64
  deriving DecidableEq, Repr

/-- What the outside world does to the block: a host's bus access (00_scope.md R9) or a change of the platform's
reset line (70_reset_and_hazards.md R140). -/
inductive BusEvent where
  /-- A host read at a bus address. -/
  | read (w : Width) (addr : Nat)
  /-- A host write at a bus address. Only a 32-bit write's data is ever used (20_memory.md R43, log 9). -/
  | write (w : Width) (addr : Nat) (data : Word)
  /-- The platform asserts (`true`) or releases (`false`) reset. -/
  | resetLine (asserted : Bool)
  deriving DecidableEq, Repr

/-- Why the machine has no next state: the accesses that the spec gives no step. The block itself never faults;
its errors are codes in `STATUS` (60_exceptions.md R120, R127). -/
inductive Fault where
  /-- Raised by `serve` for an access in the window that is not an aligned 32-bit one: the host is stuck at it
  (20_memory.md R43). Safe: the model stops where the hardware answers a bus error and goes on. -/
  | busError
  /-- Raised by `serve` for an access in the window while reset is asserted (70_reset_and_hazards.md R140).
  Safe: the model stops where the access is not answered. -/
  | accessInReset
  deriving DecidableEq, Repr

/-- Why a command has no meaning in the model. -/
inductive Refusal where
  /-- Raised by an arm of `exec` for a command without a meaning. Safe. No arm raises it: every command has one. -/
  | notModelled (mnemonic : String)
  deriving DecidableEq, Repr

/-- One block instance (10_state.md R22), its parameters, and its inputs. -/
structure State where
  /-- `ACC`, the checksum accumulator (R23). -/
  acc  : Byte
  /-- `CNT`, the sample count (R24). -/
  cnt  : BitVec 16
  /-- `RES`, the result register (R25). -/
  res  : Word
  /-- `ARG`, the operand register (R26). -/
  arg  : Word
  /-- `PEND` and `HI`, the word-pairing latch, as the optional byte that R27 allows: `some hi` is `PEND = 1` with
  `HI = hi`; `none` is `PEND = 0`, where `HI` has no value. -/
  latch : Option Byte
  /-- `CKV`, a comparison has taken place (R28). -/
  ckv  : Bool
  /-- `CKOK`, the comparison matched (R28). -/
  ckok : Bool
  /-- `ERR`, the error code of the last command (R29). -/
  err  : BitVec 4
  /-- `ESTK`, the sticky error bit (R29). -/
  estk : Bool
  /-- The platform's parameters (00_scope.md R6); no step changes them (log 1). -/
  cfg  : Config
  /-- Whether the platform asserts reset (70_reset_and_hazards.md R140, log 4). -/
  inReset : Bool
  /-- The events that have not reached the block yet, in the order they reach it (10_state.md R20,
  20_memory.md R50, log 2). -/
  pending : List BusEvent
  /-- The word the block drove in answer to the most recent access, if that was an admitted read
  (20_memory.md R44, log 3). -/
  resp : Option Word
  deriving DecidableEq, Repr

/-- `STATUS.PEND` (10_state.md R27). -/
def State.pend (s : State) : Bool := s.latch.isSome

/-- The machine right after reset (10_state.md R32), with the default parameters (00_scope.md R6), and no event
on its way to it. -/
def State.reset : State where
  acc     := 0
  cnt     := 0
  res     := 0
  arg     := 0
  latch   := none
  ckv     := false
  ckok    := false
  err     := 0
  estk    := false
  cfg     := Config.default
  inReset := false
  pending := []
  resp    := none

end Sys2Proof.Machine
end

