-- ==== Sys2Proof/Machine/Flags.lean ====
section
/-! DEFINITION. The `STATUS` fields: error codes (60_exceptions.md R120), the checksum verdict (10_state.md R28) and
the packed register (R31). -/

namespace Sys2Proof.Machine

open Sys2Proof

/-- The code an error writes to `STATUS.ERR` (60_exceptions.md R120). -/
def errorCode : CmdError → BitVec 4
  | .illop   => 1
  | .rsvbits => 2
  | .nan     => 3

/-- A flag as one bit. -/
def flagBit (b : Bool) : BitVec 1 := BitVec.ofBool b

/-- The `STATUS` register: `zext_32(ESTK ++ ERR ++ 0b0 ++ PEND ++ CKOK ++ CKV)` (10_state.md R31, 20_memory.md R44). -/
def State.status (s : State) : Word :=
  (flagBit s.estk ++ s.err ++ (0#1) ++ flagBit s.pend ++ flagBit s.ckok ++ flagBit s.ckv).zeroExtend 32

/-- A checksum comparison: `CKV <- 1; CKOK <- (ACC == c ? 1 : 0)` (41_checksum.md R92). -/
def State.compareChecksum (s : State) (c : Byte) : State := { s with ckv := true, ckok := s.acc == c }

/-- `CKV <- 0; CKOK <- 0` (41_checksum.md R90). -/
def State.clearVerdict (s : State) : State := { s with ckv := false, ckok := false }

end Sys2Proof.Machine
end

