-- ==== Sys2Proof/Machine/Ops.lean ====
section
/-! DEFINITION. The shared operations over a block's registers: completing a command, raising an error (the block's
"trap entry", 60_exceptions.md R127), clearing the error report, summing, counting, and reset. The block has no memory
(20_memory.md R40). -/

namespace Sys2Proof.Machine

open Sys2Proof

/-- A command that completes without an error: `STATUS.ERR <- 0`, `ESTK` unchanged (00_scope.md R10). -/
def State.complete (s : State) : State := { s with err := 0 }

/-- `raise CmdError(code)`: `STATUS.ERR <- code; STATUS.ESTK <- 1`, and nothing else (00_scope.md R10,
60_exceptions.md R127). -/
def State.raise (s : State) (e : CmdError) : State := { s with err := errorCode e, estk := true }

/-- Clearing the error report, `ESTK <- 0; ERR <- 0`: what stands for a return from an error
(43_status.md R110, 60_exceptions.md R128). -/
def State.clearErrors (s : State) : State := { s with estk := false, err := 0 }

/-- `ACC <- ACC +_8 b` (41_checksum.md R91, R95). -/
def State.accumulate (s : State) (b : Byte) : State := { s with acc := s.acc + b }

/-- `ACC <- 0x00; CKV <- 0; CKOK <- 0` (41_checksum.md R90). -/
def State.clearChecksum (s : State) : State := { s.clearVerdict with acc := 0 }

/-- `PEND <- 0`; `HI` then has no value (10_state.md R27). -/
def State.dropPending (s : State) : State := { s with latch := none }

/-- The first byte of a payload word: `HI <- b; PEND <- 1` (42_stream.md R102). -/
def State.holdHigh (s : State) (b : Byte) : State := { s with latch := some b }

/-- `RES <- v` (10_state.md R25). -/
def State.setRes (s : State) (v : Word) : State := { s with res := v }

/-- `CNT <- CNT +_16 1` (41_checksum.md R95). -/
def State.countSample (s : State) : State := { s with cnt := s.cnt + 1 }

/-- `CNT <- 0x0000` (42_stream.md R101). -/
def State.clearCount (s : State) : State := { s with cnt := 0 }

/-- What the release of reset does: every state element takes its reset value, whatever its value before
(70_reset_and_hazards.md R140, 10_state.md R32). The parameters and the events still on their way are not elements
of the block. -/
def State.applyReset (s : State) : State := { State.reset with cfg := s.cfg, pending := s.pending }

end Sys2Proof.Machine
end

