-- ==== Sys2Proof/Machine/Checksum.lean ====
section
/-! DEFINITION. The checksum commands (41_checksum.md) and the checksum of a byte sequence (R93). -/

namespace Sys2Proof.Machine

open Sys2Proof

/-- `Checksum(p) = (p[0] + ... + p[N-1]) mod 256` (41_checksum.md R93). -/
def checksum (p : List Byte) : Byte := BitVec.ofNat 8 ((p.map BitVec.toNat).sum)

/-- `CK.CLR` (41_checksum.md R90). -/
def execCkClr (s : State) : Host.Outcome State Fault Refusal :=
  .next s.clearChecksum.complete

/-- `CK.ACC #b` (41_checksum.md R91). -/
def execCkAcc (b : Byte) (s : State) : Host.Outcome State Fault Refusal :=
  .next (s.accumulate b).complete

/-- `CK.CMP #c` (41_checksum.md R92). -/
def execCkCmp (c : Byte) (s : State) : Host.Outcome State Fault Refusal :=
  .next (s.compareChecksum c).complete

end Sys2Proof.Machine
end

