-- ==== Sys2Proof/Machine/Operands.lean ====
section
/-! DEFINITION. Operands that are not immediates: the register operand of `CVT.S2H` (30_encoding.md R61) and the
payload word that two bytes make (20_memory.md R48). The immediates are fields of the command word: Decode.lean. -/

namespace Sys2Proof.Machine

open Sys2Proof

/-- The operand of `CVT.S2H`: `ARG[31:0]` (10_state.md R26, 40_convert.md R83). -/
def State.argOperand (s : State) : Word := s.arg

/-- A payload word, big-endian: the earlier byte is bits [15:8] (20_memory.md R48). -/
def payloadWord (hi lo : Byte) : Half := hi ++ lo

end Sys2Proof.Machine
end

