-- ==== Sys2Proof/Machine/Convert.lean ====
section
/-! DEFINITION. The conversion commands (40_convert.md): the widening `H2S`, the narrowing `S2H`, and the meanings of
`CVT.H2S` and `CVT.S2H`. -/

namespace Sys2Proof.Machine

open Sys2Proof

/-! ### binary16 and binary32 fields (00_scope.md R11) -/

/-- The sign `h[15]`. -/
def halfSign (h : Half) : BitVec 1 := h.extractLsb' 15 1

/-- The biased exponent `h[14:10]`. -/
def halfExp (h : Half) : BitVec 5 := h.extractLsb' 10 5

/-- The fraction `h[9:0]`. -/
def halfFrac (h : Half) : BitVec 10 := h.extractLsb' 0 10

/-- The sign `f[31]`. -/
def wordSign (f : Word) : BitVec 1 := f.extractLsb' 31 1

/-- The biased exponent `f[30:23]`. -/
def wordExp (f : Word) : BitVec 8 := f.extractLsb' 23 8

/-- The fraction `f[22:0]`. -/
def wordFrac (f : Word) : BitVec 23 := f.extractLsb' 0 23

/-- The magnitude `f[30:0]` (40_convert.md R84). -/
def wordMag (f : Word) : BitVec 31 := f.extractLsb' 0 31

/-! ### Widening -/

/-- The literal widening: the source's formula for "all other bit patterns" (40_convert.md R81). -/
def h2sLiteral (h : Half) : Word :=
  let sgn := (h &&& 0x8000).zeroExtend 32 <<< 16
  let exp := ((h &&& 0x7C00).zeroExtend 32 + 0x1C000) <<< 13
  let man := (h &&& 0x03FF).zeroExtend 32 <<< 13
  sgn ||| exp ||| man

/-- The index of the highest 1 bit of `m` among its lowest `n` bits; 0 when there is none. -/
def highestOneBelow (m : BitVec 10) : Nat → Nat
  | 0     => 0
  | n + 1 => if m.getLsbD n then n else highestOneBelow m n

/-- `k`, the index of the highest 1 bit of a fraction (40_convert.md R82). -/
def highestOne (m : BitVec 10) : Nat := highestOneBelow m 10

/-- The IEEE-754 widening of subnormals and NaNs (40_convert.md R82). -/
def h2sIeee (h : Half) : Word :=
  let s := halfSign h
  let m := halfFrac h
  if halfExp h = 0 then
    let k := highestOne m
    s ++ BitVec.ofNat 8 (103 + k) ++ ((m.zeroExtend 23 <<< (23 - k)) &&& 0x7FFFFF)
  else s ++ (0xFF : BitVec 8) ++ m ++ (0 : BitVec 13)

/-- The widening function `H2S` (40_convert.md R81). -/
def h2s (edge : H2sEdge) (h : Half) : Word :=
  if h = 0x0000 then 0x00000000
  else if h = 0x8000 then 0x80000000
  else if h = 0x7C00 then 0x7F800000
  else if h = 0xFC00 then 0xFF800000
  else if edge = .ieee ∧ (halfExp h = 0 ∨ halfExp h = 0b11111) then h2sIeee h
  else h2sLiteral h

/-! ### Narrowing -/

/-- The narrowing function `S2H` (40_convert.md R84). -/
def s2h (c : Config) (f : Word) : Except CmdError Half :=
  let s := wordSign f
  let mag := wordMag f
  if wordExp f = 0xFF ∧ wordFrac f ≠ 0 then .error .nan
  else if wordExp f = 0xFF then
    .ok (s ++ (if c.s2hInf = .clamp then (0x7BFF : BitVec 15) else 0x7C00))
  else if 0x477FE000 < mag then .ok (s ++ (0x7BFF : BitVec 15))
  else if mag = 0 then
    .ok (s ++ (if c.s2hZero = .zero then (0 : BitVec 15) else 1))
  else if mag < c.s2hTiny then .ok (s ++ (1 : BitVec 15))
  else .ok (s ++ ((f &&& 0x7F800000) - 0x38000000).extractLsb' 23 5 ++ (wordFrac f).extractLsb' 13 10)

/-! ### Meanings -/

/-- `CVT.H2S #h` (40_convert.md R80). -/
def execCvtH2s (h : Half) (s : State) : Host.Outcome State Fault Refusal :=
  .next (s.setRes (h2s s.cfg.h2sEdge h)).complete

/-- `CVT.S2H` (40_convert.md R83). Where `HAS_S2H` is false it raises `ILLOP`, as R83 says; the decoder of such a
block already does (30_encoding.md R63). -/
def execCvtS2h (s : State) : Host.Outcome State Fault Refusal :=
  if s.cfg.hasS2h then
    match s2h s.cfg s.argOperand with
    | .ok r    => .next (s.setRes (r.zeroExtend 32)).complete
    | .error e => .next (s.raise e)
  else .next (s.raise .illop)

end Sys2Proof.Machine
end

