-- ==== Sys2Proof/Machine/Status.lean ====
section
/-! DEFINITION. The status command (43_status.md). -/

namespace Sys2Proof.Machine

open Sys2Proof

/-- `ST.CLR` (43_status.md R110). -/
def execStClr (s : State) : Host.Outcome State Fault Refusal :=
  .next s.clearErrors.complete

end Sys2Proof.Machine
end

