-- ==== Sys2Proof/Machine/Stream.lean ====
section
/-! DEFINITION. The payload-stream commands (42_stream.md). -/

namespace Sys2Proof.Machine

open Sys2Proof

/-- `PL.START` (42_stream.md R101). -/
def execPlStart (s : State) : Host.Outcome State Fault Refusal :=
  .next s.clearChecksum.clearCount.dropPending.complete

/-- Pairing a payload byte (42_stream.md R102): hold a first byte; widen and count on a second. -/
def State.pairByte (s : State) (b : Byte) : State :=
  match s.latch with
  | none    => s.holdHigh b
  | some hi => (s.setRes (h2s s.cfg.h2sEdge (payloadWord hi b))).dropPending.countSample

/-- `PL.BYTE #b` (42_stream.md R102): every payload byte is summed, then paired. -/
def execPlByte (b : Byte) (s : State) : Host.Outcome State Fault Refusal :=
  .next ((s.accumulate b).pairByte b).complete

/-- `PL.END #c` (42_stream.md R103). -/
def execPlEnd (c : Byte) (s : State) : Host.Outcome State Fault Refusal :=
  .next (s.compareChecksum c).dropPending.complete

end Sys2Proof.Machine
end

