-- ==== Sys2Proof/Machine/Dispatch.lean ====
section
/-! DEFINITION. The meaning of each command (30_encoding.md R65, the `case op of`): one arm per constructor. -/

namespace Sys2Proof.Machine

/-- Carry out one decoded command. -/
def exec (i : Instr) (s : State) : Host.Outcome State Fault Refusal :=
  match i with
  | .cvtH2s h => Sys2Proof.Machine.execCvtH2s h s
  | .cvtS2h => Sys2Proof.Machine.execCvtS2h s
  | .ckClr => Sys2Proof.Machine.execCkClr s
  | .ckAcc b => Sys2Proof.Machine.execCkAcc b s
  | .ckCmp c => Sys2Proof.Machine.execCkCmp c s
  | .plStart => Sys2Proof.Machine.execPlStart s
  | .plByte b => Sys2Proof.Machine.execPlByte b s
  | .plEnd c => Sys2Proof.Machine.execPlEnd c s
  | .stClr => Sys2Proof.Machine.execStClr s

end Sys2Proof.Machine
end

