-- ==== Sys2Proof/Machine/Window.lean ====
section
/-! DEFINITION. The register window: address decode (20_memory.md R41), which accesses are admitted (R42, R43), reads
(R44), writes (R45), and what each event does to the block. -/

namespace Sys2Proof.Machine

open Sys2Proof

/-- The eight words of the window (10_state.md R30). -/
inductive Reg where
  | cmd | arg | res | status | acc | cnt | rsv18 | rsv1C
  deriving DecidableEq, Repr

/-- The offset of each register (10_state.md R30). -/
def Reg.offset : Reg → Nat
  | .cmd    => 0x00
  | .arg    => 0x04
  | .res    => 0x08
  | .status => 0x0C
  | .acc    => 0x10
  | .cnt    => 0x14
  | .rsv18  => 0x18
  | .rsv1C  => 0x1C

/-- The register at an offset; none at an offset with `off[1:0] ≠ 0b00` (20_memory.md R42). -/
def regAt (off : BitVec 5) : Option Reg :=
  match off.toNat with
  | 0x00 => some .cmd
  | 0x04 => some .arg
  | 0x08 => some .res
  | 0x0C => some .status
  | 0x10 => some .acc
  | 0x14 => some .cnt
  | 0x18 => some .rsv18
  | 0x1C => some .rsv1C
  | _    => none

/-- Address decode (20_memory.md R41): the offset of an address in the window; none outside it. -/
def windowOffset (c : Config) (a : Nat) : Option (BitVec 5) :=
  if c.base ≤ a ∧ a ≤ c.base + 0x1F then some (BitVec.ofNat 5 (a - c.base)) else none

/-- The bus address of a register. -/
def regAddr (c : Config) (r : Reg) : Nat := c.base + r.offset

/-- An access in the window is admitted when it is 32 bits wide and aligned (20_memory.md R42). -/
def admittedReg (w : Width) (off : BitVec 5) : Option Reg :=
  if w = .w32 then regAt off else none

/-- What a read of each register returns (20_memory.md R44, 10_state.md R30). -/
def readReg (s : State) : Reg → Word
  | .cmd    => 0
  | .arg    => s.arg
  | .res    => s.res
  | .status => s.status
  | .acc    => s.acc.zeroExtend 32
  | .cnt    => s.cnt.zeroExtend 32
  | .rsv18  => 0
  | .rsv1C  => 0

/-- The bus byte lane `k` of a register's value, little-endian (20_memory.md R47). No admitted access observes it. -/
def byteLane (v : Word) (k : Fin 4) : Byte := v.extractLsb' (8 * k.val) 8

/-- `Execute(v)` (30_encoding.md R65): decode a command word and carry it out, or raise its decoding error. -/
def execute (v : Word) (s : State) : Host.Outcome State Fault Refusal :=
  match decode s.cfg.hasS2h v with
  | .ok i    => exec i s
  | .error e => .next (s.raise e)

/-- What a write to each register does (20_memory.md R45): `CMD` carries out a command, `ARG` is stored, and the
read-only and reserved words ignore it (10_state.md R30). -/
def writeReg (v : Word) (s : State) : Reg → Host.Outcome State Fault Refusal
  | .cmd    => execute v s
  | .arg    => .next { s with arg := v }
  | .res    => .next s
  | .status => .next s
  | .acc    => .next s
  | .cnt    => .next s
  | .rsv18  => .next s
  | .rsv1C  => .next s

/-- A host access at an address: not the block's outside the window (20_memory.md R41); no step while reset is asserted
(70_reset_and_hazards.md R140) or when it is not admitted (20_memory.md R43); else what `act` does at the register. -/
def access (w : Width) (a : Nat) (s : State) (act : Reg → Host.Outcome State Fault Refusal) :
    Host.Outcome State Fault Refusal :=
  match windowOffset s.cfg a with
  | none => .next s
  | some off =>
    if s.inReset then .fault .accessInReset
    else match admittedReg w off with
      | none   => .fault .busError
      | some r => act r

/-- What the platform's reset line does (70_reset_and_hazards.md R140): its release, after it was asserted, resets the
block. Asserting it only keeps the block from answering (log 4). -/
def resetLine (asserted : Bool) (s : State) : State :=
  match asserted, s.inReset with
  | true,  _     => { s with inReset := true }
  | false, true  => s.applyReset
  | false, false => s

/-- What one event that reaches the block does. -/
def serve (ev : BusEvent) (s : State) : Host.Outcome State Fault Refusal :=
  match ev with
  | .read w a      => access w a s fun r => .next { s with resp := some (readReg s r) }
  | .write w a v   => access w a s (writeReg v s)
  | .resetLine on  => .next (resetLine on s)

/-- Take the next event off the queue; the answer to the access before it is gone from the bus. -/
def State.take (s : State) (rest : List BusEvent) : State := { s with pending := rest, resp := none }

/-- The host's write of a word to `CMD` (30_encoding.md R67). -/
def cmdWordWrite (c : Config) (v : Word) : BusEvent := .write .w32 (regAddr c .cmd) v

/-- The host's write of a command to `CMD` (30_encoding.md R67). -/
def cmdWrite (c : Config) (i : Instr) : BusEvent := cmdWordWrite c (encode i)

/-- The host's write of `ARG` (30_encoding.md R67). -/
def argWrite (c : Config) (v : Word) : BusEvent := .write .w32 (regAddr c .arg) v

/-- The host's read of a register (30_encoding.md R67). -/
def regRead (c : Config) (r : Reg) : BusEvent := .read .w32 (regAddr c r)

end Sys2Proof.Machine
end

