-- ==== Sys2Proof/Machine/Step.lean ====
section
/-! DEFINITION. One step of the machine: the next event that reaches the block, as one atomic step (00_scope.md R5,
20_memory.md R46, R50). -/

namespace Sys2Proof.Machine

open Sys2Proof

/-- The next event takes its whole effect (20_memory.md R46). With no event the block holds its state unchanged
(60_exceptions.md R136, log 7). -/
def step (s : State) : Host.Outcome State Fault Refusal :=
  match s.pending with
  | []         => .next s
  | ev :: rest => serve ev (s.take rest)

/-- Place a command word where the next step takes it from: the host's next access is its write to `CMD`
(10_state.md R20, log 10). Reset is not asserted, and a block given the opcode of `CVT.S2H` has that command, since
both are needed for the step to carry the word's command out. -/
def State.withFetchWord (s : State) (nbits w : Nat) : State :=
  let v := BitVec.ofNat 32 (w % 2 ^ nbits)
  { s with
    pending := cmdWordWrite s.cfg v :: s.pending
    inReset := false
    cfg     := { s.cfg with hasS2h := s.cfg.hasS2h || opField v == 2 } }

end Sys2Proof.Machine
end

