-- ==== Sys2Proof/Machine/Assembler.lean ====
section
/-! DEFINITION. Assembler lines and pseudo-commands (30_encoding.md R67, R68): what host accesses they stand for. A line
is given as its parts, not as text (log 18). The block never sees any of this. -/

namespace Sys2Proof.Machine

open Sys2Proof

/-- One command or host access (30_encoding.md R67). An immediate is a number that may or may not fit. -/
inductive AsmLine where
  | cvtH2s (imm : Nat)
  | cvtS2h
  | ckClr
  | ckAcc (imm : Nat)
  | ckCmp (imm : Nat)
  | plStart
  | plByte (imm : Nat)
  | plEnd (imm : Nat)
  | stClr
  /-- `WR ARG, #v`. -/
  | wrArg (v : Nat)
  /-- `RD name`. -/
  | rd (r : Reg)
  deriving DecidableEq, Repr

/-- The pseudo-commands (30_encoding.md R68). -/
inductive Pseudo where
  /-- `CVT.H2S.BE #hi, #lo`. -/
  | cvtH2sBe (hi lo : Nat)
  /-- `S2H #v`. -/
  | s2h (v : Nat)
  /-- `CK.SUM #b0, ..., #bk`. -/
  | ckSum (bytes : List Nat)
  /-- `PL.FRAME #b0, ..., #b(N-1) ; #c`. -/
  | plFrame (bytes : List Nat) (c : Nat)
  deriving DecidableEq, Repr

/-- A number as an immediate of `w` bits; none where it does not fit, which is an assembly error (30_encoding.md R67). -/
def immediate (w n : Nat) : Option (BitVec w) := if n < 2 ^ w then some (BitVec.ofNat w n) else none

/-- The registers that `RD` names (30_encoding.md R67). -/
def Reg.readable : Reg → Bool
  | .cmd    => false
  | .arg    => true
  | .res    => true
  | .status => true
  | .acc    => true
  | .cnt    => true
  | .rsv18  => false
  | .rsv1C  => false

/-- The host access of a line; none for an assembly error (30_encoding.md R67). -/
def assembleLine (c : Config) : AsmLine → Option BusEvent
  | .cvtH2s n => (immediate 16 n).map fun h => cmdWrite c (.cvtH2s h)
  | .cvtS2h   => some (cmdWrite c .cvtS2h)
  | .ckClr    => some (cmdWrite c .ckClr)
  | .ckAcc n  => (immediate 8 n).map fun b => cmdWrite c (.ckAcc b)
  | .ckCmp n  => (immediate 8 n).map fun b => cmdWrite c (.ckCmp b)
  | .plStart  => some (cmdWrite c .plStart)
  | .plByte n => (immediate 8 n).map fun b => cmdWrite c (.plByte b)
  | .plEnd n  => (immediate 8 n).map fun b => cmdWrite c (.plEnd b)
  | .stClr    => some (cmdWrite c .stClr)
  | .wrArg n  => (immediate 32 n).map fun v => argWrite c v
  | .rd r     => if r.readable then some (regRead c r) else none

/-- The host accesses of a program; none when one of its lines is an assembly error. -/
def assemble (c : Config) : List AsmLine → Option (List BusEvent)
  | []         => some []
  | l :: lines =>
    match assembleLine c l, assemble c lines with
    | some ev, some evs => some (ev :: evs)
    | _, _              => none

/-- The expansion of a pseudo-command (30_encoding.md R68). `CVT.H2S.BE` takes two payload bytes: an operand that is
no byte is an assembly error (log 18). -/
def expand : Pseudo → Option (List AsmLine)
  | .cvtH2sBe hi lo  => if hi < 256 ∧ lo < 256 then some [.cvtH2s (hi <<< 8 ||| lo)] else none
  | .s2h v           => some [.wrArg v, .cvtS2h]
  | .ckSum bytes     => some (.ckClr :: bytes.map .ckAcc)
  | .plFrame bytes c => some (.plStart :: bytes.map .plByte ++ [.plEnd c])

end Sys2Proof.Machine
end

