-- ==== Sys2Proof/Machine/FloatValue.lean ====
section
/-! DEFINITION. The real magnitudes that finite bit patterns stand for under the layouts of 00_scope.md R11, as exact
multiples of 2^-149. The commands work on patterns; these readings only explain them (R11, general knowledge, log 15),
so that a claim can say that a conversion keeps a value. -/

namespace Sys2Proof.Machine

open Sys2Proof

/-- The magnitude of a finite binary16 pattern: `m * 2^-24`, or `(1024 + m) * 2^(e - 25)` (bias 15), times 2^149. -/
def halfMagnitude (h : Half) : Nat :=
  if halfExp h = 0 then (halfFrac h).toNat * 2 ^ 125
  else (1024 + (halfFrac h).toNat) * 2 ^ ((halfExp h).toNat - 1) * 2 ^ 125

/-- The magnitude of a finite binary32 pattern: `M * 2^-149`, or `(2^23 + M) * 2^(E - 150)` (bias 127), times 2^149. -/
def wordMagnitude (f : Word) : Nat :=
  if wordExp f = 0 then (wordFrac f).toNat
  else (2 ^ 23 + (wordFrac f).toNat) * 2 ^ ((wordExp f).toNat - 1)

/-- A binary16 NaN: exponent all ones, fraction not 0. -/
def halfIsNaN (h : Half) : Bool := halfExp h == 0b11111 && halfFrac h != 0

/-- A binary32 NaN (40_convert.md R84, 60_exceptions.md R123). -/
def wordIsNaN (f : Word) : Bool := wordExp f == 0xFF && wordFrac f != 0

/-- A normal binary16 pattern: exponent field in 1 to 30 (40_convert.md R81). -/
def halfIsNormal (h : Half) : Bool := halfExp h != 0 && halfExp h != 0b11111

end Sys2Proof.Machine
end

