-- ==== Sys2Proof/Machine/Run.lean ====
section
/-! DEFINITION. Several steps in a row: the events of the queue reach the block one at a time (20_memory.md R50). -/

namespace Sys2Proof.Machine

/-- `n` steps, ending at the first one that has no next state. -/
def run : Nat → State → Host.Outcome State Fault Refusal
  | 0,     s => .next s
  | n + 1, s =>
    match step s with
    | .next t    => run n t
    | .fault r   => .fault r
    | .refused r => .refused r

end Sys2Proof.Machine
end

