-- ==== Sys2Proof/Machine/Frame.lean ====
section
/-! DEFINITION. The host's side of a frame (20_memory.md R55 to R57, 00_scope.md R12): the layout, the structural checks,
the accesses that feed a frame to the block, and the source's result codes. The block does none of this and depends on
none of it (R56); it is here so that a claim can speak of a whole frame (log 17). -/

namespace Sys2Proof.Machine

open Sys2Proof

/-- The source's seven result codes (00_scope.md R12). -/
inductive ParseOutcome where
  | success
  | nullBuffer
  | emptyBuffer
  | unknownFunction
  | headerShort
  | payloadExceeds
  | checksumMismatch
  deriving DecidableEq, Repr

/-- Their values (00_scope.md R12). -/
def ParseOutcome.code : ParseOutcome → Byte
  | .success          => 0x00
  | .nullBuffer       => 0x10
  | .emptyBuffer      => 0x20
  | .unknownFunction  => 0x25
  | .headerShort      => 0x30
  | .payloadExceeds   => 0x40
  | .checksumMismatch => 0x50

/-- The byte at a frame offset; only read where the checks of R56 have shown that it is there. -/
def frameByte (b : List Byte) (i : Nat) : Byte := b.getD i 0

/-- A big-endian uint16 field (20_memory.md R55). -/
def frameU16 (b : List Byte) (i : Nat) : Half := payloadWord (frameByte b i) (frameByte b (i + 1))

/-- The frame's header fields (20_memory.md R55). -/
structure FrameHeader where
  functionCode  : Byte
  gateway       : Half
  year          : Half
  month         : Byte
  day           : Byte
  hour          : Byte
  minute        : Byte
  second        : Byte
  payloadLength : Half
  deriving DecidableEq, Repr

/-- Reading the header at its offsets (20_memory.md R55). Offset 0 is not described and not read. -/
def frameHeader (b : List Byte) : FrameHeader where
  functionCode  := frameByte b 1
  gateway       := frameU16 b 2
  year          := frameU16 b 4
  month         := frameByte b 6
  day           := frameByte b 7
  hour          := frameByte b 8
  minute        := frameByte b 9
  second        := frameByte b 10
  payloadLength := frameU16 b 11

/-- `N`, the declared payload length (20_memory.md R55, R56). -/
def declaredLength (b : List Byte) : Nat := (frameU16 b 11).toNat

/-- The payload, at offsets 13 to 13+N-1 (20_memory.md R55). -/
def framePayload (b : List Byte) : List Byte := (b.drop 13).take (declaredLength b)

/-- The trailing checksum byte, at offset 13+N (20_memory.md R55). -/
def frameTrailer (b : List Byte) : Byte := frameByte b (13 + declaredLength b)

/-- The recognised function codes (20_memory.md R55). -/
def knownFunction (f : Byte) : Bool := f == 0xB1 || f == 0xB2 || f == 0xB3 || f == 0xB4

/-- The structural checks in the source's order (20_memory.md R56): the code of the first that fails, or none. -/
def structuralCheck : Option (List Byte) → Option ParseOutcome
  | none => some .nullBuffer
  | some b =>
    if b.length < 2 then some .emptyBuffer
    else if !knownFunction (frameByte b 1) then some .unknownFunction
    else if b.length < 13 then some .headerShort
    else if b.length < 13 + declaredLength b + 1 then some .payloadExceeds
    else none

/-- The commands that feed a frame (20_memory.md R57, 42_stream.md R100). -/
def frameCommands (p : List Byte) (c : Byte) : List Instr := .plStart :: p.map .plByte ++ [.plEnd c]

/-- The host's accesses that feed a frame (20_memory.md R57). -/
def feedFrame (cfg : Config) (p : List Byte) (c : Byte) : List BusEvent := (frameCommands p c).map (cmdWrite cfg)

/-- What the block's verdict means to the host whose structural checks have passed (00_scope.md R12): `CKV` is bit 0 of
`STATUS` and `CKOK` is bit 1. -/
def outcomeOfStatus (status : Word) : Option ParseOutcome :=
  if status.getLsbD 0 then
    if status.getLsbD 1 then some .success else some .checksumMismatch
  else none

/-- The host decodes a buffer with a block in state `s` (20_memory.md R56, R57, 00_scope.md R12): none when the block
gives no verdict. -/
def hostDecode (buf : Option (List Byte)) (s : State) : Option ParseOutcome :=
  match structuralCheck buf, buf with
  | some o, _      => some o
  | none,   none   => none
  | none,   some b =>
    let evs := feedFrame s.cfg (framePayload b) (frameTrailer b)
    match run evs.length { s with pending := evs } with
    | .next t    => outcomeOfStatus (readReg t .status)
    | .fault _   => none
    | .refused _ => none

end Sys2Proof.Machine
end

