-- ==== Sys2Proof/Machine/Platform.lean ====
section
/-! DEFINITION. A platform's independent block instances (00_scope.md R6 `NUM_INSTANCES`, 60_exceptions.md R134). -/

namespace Sys2Proof.Machine

open Sys2Proof

/-- The instances of a platform, each a separate copy of the state (60_exceptions.md R134). -/
structure Platform where
  blocks : List State
  deriving DecidableEq, Repr

/-- A block right after reset with given parameters (10_state.md R32). -/
def State.resetWith (c : Config) : State := { State.reset with cfg := c }

/-- Every instance right after its reset. -/
def Platform.reset (p : PlatformConfig) : Platform := ⟨p.instances.map State.resetWith⟩

/-- The next event of instance `k`: instances share no state (60_exceptions.md R134). An instance the platform does not
have does nothing. -/
def Platform.stepAt (p : Platform) (k : Nat) : Host.Outcome Platform Fault Refusal :=
  match p.blocks[k]? with
  | none   => .next p
  | some s =>
    match step s with
    | .next t    => .next ⟨p.blocks.set k t⟩
    | .fault r   => .fault r
    | .refused r => .refused r

end Sys2Proof.Machine
end

