-- ==== Sys2Proof/Safety.lean ====
section
/-! DEFINITION. The terms in which claims speak of safe states and safe runs. -/

namespace Sys2Proof.Machine

open Sys2Proof

/-- What the register map promises of every state (10_state.md R28, R29, R31): `CKOK` is 0 whenever `CKV` is 0, `ERR` is
one of its legal values 0 to 3, and an error code that still shows is also in the sticky bit. -/
abbrev State.Legal (s : State) : Prop :=
  (s.ckok = true → s.ckv = true) ∧ s.err.toNat ≤ 3 ∧ (s.err ≠ 0 → s.estk = true)

/-- The block answers this access (20_memory.md R41 to R43, 70_reset_and_hazards.md R140): it is outside the window, or
it is a 32-bit aligned one while reset is not asserted. -/
def answered (c : Config) (inReset : Bool) (w : Width) (a : Nat) : Bool :=
  match windowOffset c a with
  | none     => true
  | some off => !inReset && (admittedReg w off).isSome

/-- No access of a host's sequence is one that the spec gives no step. -/
def servable (c : Config) : Bool → List BusEvent → Bool
  | _,       []                     => true
  | inReset, .read w a :: rest      => answered c inReset w a && servable c inReset rest
  | inReset, .write w a _ :: rest   => answered c inReset w a && servable c inReset rest
  | _,       .resetLine on :: rest  => servable c on rest

/-- The error a command word raises on a block with these parameters and this `ARG`, if any (60_exceptions.md R120
to R125). No command writes `ARG` (10_state.md R26). -/
def commandError (c : Config) (arg v : Word) : Option CmdError :=
  match decode c.hasS2h v with
  | .error e => some e
  | .ok i    =>
    if i = .cvtS2h ∧ wordExp arg = 0xFF ∧ wordFrac arg ≠ 0 then some .nan else none

/-- The words of a sequence that raise no error (43_status.md R111). -/
def successful (c : Config) (arg : Word) (vs : List Word) : List Word :=
  vs.filter fun v => (commandError c arg v).isNone

/-- The bytes a command sequence accumulates, each by one `CK.ACC` or one `PL.BYTE` (41_checksum.md R94). -/
def accumulatedBytes : List Instr → List Byte
  | []               => []
  | .ckAcc b :: is   => b :: accumulatedBytes is
  | .plByte b :: is  => b :: accumulatedBytes is
  | .cvtH2s _ :: is  => accumulatedBytes is
  | .cvtS2h :: is    => accumulatedBytes is
  | .ckClr :: is     => accumulatedBytes is
  | .ckCmp _ :: is   => accumulatedBytes is
  | .plStart :: is   => accumulatedBytes is
  | .plEnd _ :: is   => accumulatedBytes is
  | .stClr :: is     => accumulatedBytes is

/-- The two commands that clear the accumulator (41_checksum.md R90, 42_stream.md R101). -/
def clearsAcc (i : Instr) : Bool := i == .ckClr || i == .plStart

/-- The accesses of a sequence of command words (30_encoding.md R60). -/
def wordWrites (c : Config) (vs : List Word) : List BusEvent := vs.map (cmdWordWrite c)

end Sys2Proof.Machine
end

