-- ==== Sys2Proof/WellFormed.lean ====
section
/-! DEFINITION. When a command exists, and when parameters are legal.
An operand needs no check: its bit-vector type is its field's width (30_encoding.md R61). -/

namespace Sys2Proof

/-- The command exists on a block with this `HAS_S2H` (30_encoding.md R62, R63): all do, but for `CVT.S2H`. -/
def Instr.wf (hasS2h : Bool) : Instr → Bool
  | .cvtH2s _ => true
  | .cvtS2h   => hasS2h
  | .ckClr    => true
  | .ckAcc _  => true
  | .ckCmp _  => true
  | .plStart  => true
  | .plByte _ => true
  | .plEnd _  => true
  | .stClr    => true

/-- The window is aligned to 32 bytes (00_scope.md R6). -/
def Config.wf (c : Config) : Bool := c.base % 32 == 0

/-- `NUM_INSTANCES` is at least 1, and every instance's parameters are legal (00_scope.md R6). -/
def PlatformConfig.wf (p : PlatformConfig) : Bool :=
  decide (1 ≤ p.numInstances) && p.instances.all Config.wf

end Sys2Proof
end

