-- ==== Sys2Proof/Certificates/Slice0/Obligations.lean ====
section
/-! DEFINITION. The statements for the provers, from the numbered rules of spec/. -/

open Sys2Proof Sys2Proof.Machine

/-! ### Encoding (30_encoding.md) -/

/-- Words written out from the encodings of 30_encoding.md R62 (and the vectors E1 to E15 of 95_test_vectors.md) decode
to the command or the error they stand for. -/
def Obligations.SpecWordsDecode : Prop :=
  decode false 0x10003C00 = .ok (.cvtH2s 0x3C00) ∧
  decode true  0x20000000 = .ok .cvtS2h ∧
  decode false 0x30000000 = .ok .ckClr ∧
  decode false 0x40000002 = .ok (.ckAcc 0x02) ∧
  decode false 0x5000003C = .ok (.ckCmp 0x3C) ∧
  decode false 0x60000000 = .ok .plStart ∧
  decode false 0x7000003C = .ok (.plByte 0x3C) ∧
  decode false 0x800000FF = .ok (.plEnd 0xFF) ∧
  decode false 0x90000000 = .ok .stClr ∧
  decode false 0x00000000 = .error .illop ∧
  decode false 0x20000000 = .error .illop ∧
  decode false 0xA0000001 = .error .illop ∧
  decode true  0x20000001 = .error .rsvbits ∧
  decode false 0x10010000 = .error .rsvbits ∧
  decode false 0x40000100 = .error .rsvbits ∧
  decode false 0x300000FF = .error .rsvbits

/-- Decoding an encoded command gives it back, with every operand at every value (30_encoding.md R65, R67). -/
def Obligations.EncodeThenDecode : Prop :=
  ∀ (hasS2h : Bool) (i : Instr), i.wf hasS2h = true → decode hasS2h (encode i) = .ok i

/-- A word that decodes to a command is that command's encoding, so each command has one word, and the block has the
command (30_encoding.md R62, R65, R67). -/
def Obligations.DecodeThenEncode : Prop :=
  ∀ (hasS2h : Bool) (v : Word) (i : Instr), decode hasS2h v = .ok i → encode i = v ∧ i.wf hasS2h = true

/-- The opcode map of 30_encoding.md R62: a word decodes to a row's command exactly when `(v & mask) == match` for
that row (and `CVT.S2H` exists), and no word matches two rows. -/
def Obligations.WordEncodesItsTableRow : Prop :=
  (∀ (hasS2h : Bool) (v : Word) (op : Opcode),
    (∃ i, decode hasS2h v = .ok i ∧ i.opcode = op) ↔
      v &&& op.mask = op.matchBits ∧ (op = .cvtS2h → hasS2h = true)) ∧
  (∀ (v : Word) (op₁ op₂ : Opcode),
    v &&& op₁.mask = op₁.matchBits → v &&& op₂.mask = op₂.matchBits → op₁ = op₂)

/-- 30_encoding.md R63 and 60_exceptions.md R121: the illegal opcodes are exactly 0x0, 0xA to 0xF, and 0x2 without
`HAS_S2H`; writing such a word raises `ILLOP`, which records only the code. -/
def Obligations.IllegalOpcodesRaiseIllop : Prop :=
  ∀ (s : State) (v : Word),
    (decode s.cfg.hasS2h v = .error .illop ↔
      opField v = 0 ∨ 0xA ≤ opField v ∨ (opField v = 2 ∧ s.cfg.hasS2h = false)) ∧
    (decode s.cfg.hasS2h v = .error .illop → execute v s = .next { s with err := 1, estk := true })

/-- 30_encoding.md R64 and 60_exceptions.md R122: a word whose opcode names a command raises `RSVBITS`, which records
only the code, exactly when a bit outside the command's fields is not 0. -/
def Obligations.ReservedBitsRaiseRsvbits : Prop :=
  ∀ (s : State) (v : Word),
    (decode s.cfg.hasS2h v = .error .rsvbits ↔
      (1 ≤ opField v ∧ opField v ≤ 9 ∧ (opField v = 2 → s.cfg.hasS2h = true)) ∧
      (rsvField v ≠ 0 ∨
       (opField v ∈ [(4 : BitVec 4), 5, 7, 8] ∧ immHi v ≠ 0) ∨
       (opField v ∈ [(2 : BitVec 4), 3, 6, 9] ∧ immField v ≠ 0))) ∧
    (decode s.cfg.hasS2h v = .error .rsvbits → execute v s = .next { s with err := 2, estk := true })

/-- 60_exceptions.md R120 with 00_scope.md R10: the code every `CMD` write leaves in `ERR`, in the priority of
60_exceptions.md R125, and what it leaves in `ESTK`. -/
def Obligations.EveryCommandWordReportsOneCode : Prop :=
  ∀ (s : State) (v : Word), ∃ t, execute v s = .next t ∧
    t.err =
      (if opField v = 0 ∨ 0xA ≤ opField v ∨ (opField v = 2 ∧ s.cfg.hasS2h = false) then 1
       else if rsvField v ≠ 0 ∨ (opField v ∈ [(4 : BitVec 4), 5, 7, 8] ∧ immHi v ≠ 0) ∨
         (opField v ∈ [(2 : BitVec 4), 3, 6, 9] ∧ immField v ≠ 0) then 2
       else if opField v = 2 ∧ s.arg.extractLsb' 23 8 = 0xFF ∧ s.arg.extractLsb' 0 23 ≠ 0 then 3
       else 0) ∧
    t.estk = (if t.err ≠ 0 then true else if v = 0x90000000 then false else s.estk)

/-! ### The step and the window (20_memory.md) -/

/-- A step whose event is a write to `CMD` of a word that decodes to a command is that command's meaning
(20_memory.md R45, 30_encoding.md R65); the event is gone from the queue, and no read data is on the bus (logs 2, 3). -/
def Obligations.StepRunsDecodedCommand : Prop :=
  ∀ (s : State) (v : Word) (i : Instr) (rest : List BusEvent),
    s.inReset = false → s.pending = .write .w32 s.cfg.base v :: rest → decode s.cfg.hasS2h v = .ok i →
    step s = exec i { s with pending := rest, resp := none }

/-- A step whose event is a write to `CMD` of a word that does not decode writes the error fields and nothing else of
the block (00_scope.md R10, 60_exceptions.md R127). -/
def Obligations.StepReportsDecodingError : Prop :=
  ∀ (s : State) (v : Word) (e : CmdError) (rest : List BusEvent),
    s.inReset = false → s.pending = .write .w32 s.cfg.base v :: rest → decode s.cfg.hasS2h v = .error e →
    step s = .next { s with pending := rest, resp := none, err := errorCode e, estk := true }

/-- The model's choice of log 10: the word that `withFetchWord` places is the one the next step runs. -/
def Obligations.PlacedCommandRunsNext : Prop :=
  ∀ (s : State) (i : Instr),
    step (s.withFetchWord 32 (encode i).toNat) =
      exec i { s with inReset := false, resp := none,
                      cfg := { s.cfg with hasS2h := s.cfg.hasS2h || decide (i = .cvtS2h) } }

/-- With no event on its way the block holds its state (60_exceptions.md R136; the step itself is log 7's choice). -/
def Obligations.IdleBlockHoldsState : Prop :=
  ∀ s : State, s.pending = [] → step s = .next s

/-- An access at an address outside the window is not the block's and does not change its state (20_memory.md R41). Which
accesses these are is the model's reading, log 8: an access belongs to the block by its own address alone, so a 64-bit
access that starts just below the window is outside it. That no read data is on the bus after it is log 3's choice. -/
def Obligations.AccessOutsideWindowChangesNothing : Prop :=
  ∀ (s : State) (w : Width) (a : Nat) (v : Word) (rest : List BusEvent),
    a < s.cfg.base ∨ s.cfg.base + 0x1F < a →
    s.pending = .read w a :: rest ∨ s.pending = .write w a v :: rest →
    step s = .next { s with pending := rest, resp := none }

/-- 20_memory.md R42 and R43: in the window only an aligned 32-bit access is admitted; any other gets a bus error and
has no step. -/
def Obligations.OnlyAlignedWordAccessHasStep : Prop :=
  ∀ (s : State) (w : Width) (a : Nat) (v : Word) (rest : List BusEvent),
    s.inReset = false → s.cfg.base ≤ a → a ≤ s.cfg.base + 0x1F →
    s.pending = .read w a :: rest ∨ s.pending = .write w a v :: rest →
    (w = .w32 ∧ (a - s.cfg.base) % 4 = 0 → ∃ t, step s = .next t) ∧
    (w ≠ .w32 ∨ (a - s.cfg.base) % 4 ≠ 0 → step s = .fault .busError)

/-- 20_memory.md R44: what a read of each offset returns. It changes nothing but the data on the bus, and a second read
returns the same. -/
def Obligations.ReadReturnsRegister : Prop :=
  ∀ (s : State) (off : Nat) (val : Word) (rest : List BusEvent), s.inReset = false →
    (off, val) ∈ [(0x00, (0 : Word)), (0x04, s.arg), (0x08, s.res),
      (0x0C, (BitVec.ofBool s.estk ++ s.err ++ (0 : BitVec 1) ++ BitVec.ofBool s.latch.isSome ++
        BitVec.ofBool s.ckok ++ BitVec.ofBool s.ckv).zeroExtend 32),
      (0x10, s.acc.zeroExtend 32), (0x14, s.cnt.zeroExtend 32), (0x18, 0), (0x1C, 0)] →
    (s.pending = .read .w32 (s.cfg.base + off) :: rest →
      step s = .next { s with pending := rest, resp := some val }) ∧
    (s.pending = .read .w32 (s.cfg.base + off) :: .read .w32 (s.cfg.base + off) :: rest →
      run 2 s = .next { s with pending := rest, resp := some val })

/-- The `STATUS` register bit by bit (10_state.md R31). -/
def Obligations.StatusBitsAreTheFields : Prop :=
  ∀ s : State,
    (readReg s .status).getLsbD 0 = s.ckv ∧
    (readReg s .status).getLsbD 1 = s.ckok ∧
    (readReg s .status).getLsbD 2 = s.latch.isSome ∧
    (readReg s .status).getLsbD 3 = false ∧
    (readReg s .status).extractLsb' 4 4 = s.err ∧
    (readReg s .status).getLsbD 8 = s.estk ∧
    (readReg s .status).extractLsb' 9 23 = 0

/-- 20_memory.md R45: a write to `CMD` carries out its word, a write to `ARG` stores it, every other write is ignored;
a second `ARG` write changes nothing, and a second `CK.ACC` adds its byte again. -/
def Obligations.WriteReachesRegister : Prop :=
  ∀ (s : State) (v : Word) (rest : List BusEvent), s.inReset = false →
    (s.pending = .write .w32 s.cfg.base v :: rest →
      step s = execute v { s with pending := rest, resp := none }) ∧
    (s.pending = .write .w32 (s.cfg.base + 4) v :: rest →
      step s = .next { s with pending := rest, resp := none, arg := v }) ∧
    (∀ off ∈ [0x08, 0x0C, 0x10, 0x14, 0x18, 0x1C], s.pending = .write .w32 (s.cfg.base + off) v :: rest →
      step s = .next { s with pending := rest, resp := none }) ∧
    (s.pending = .write .w32 (s.cfg.base + 4) v :: .write .w32 (s.cfg.base + 4) v :: rest →
      run 2 s = .next { s with pending := rest, resp := none, arg := v }) ∧
    (∀ b : Byte, v = 0x40000000 ||| b.zeroExtend 32 →
      s.pending = .write .w32 s.cfg.base v :: .write .w32 s.cfg.base v :: rest →
      run 2 s = .next { s with pending := rest, resp := none, acc := s.acc + b + b, err := 0 })

/-- A read right after a command sees the command's whole effect (20_memory.md R46, R50, 70_reset_and_hazards.md
R151). -/
def Obligations.ReadAfterCommandSeesItsEffect : Prop :=
  ∀ (s : State) (v : Word) (r : Reg) (rest : List BusEvent), s.inReset = false →
    s.pending = cmdWordWrite s.cfg v :: regRead s.cfg r :: rest →
    ∃ t, execute v { s with pending := regRead s.cfg r :: rest, resp := none } = .next t ∧
      run 2 s = .next { t with pending := rest, resp := some (readReg t r) }

/-- An operand that reaches `ARG` before its `CVT.S2H` is the one converted (70_reset_and_hazards.md R145). -/
def Obligations.OperandWrittenFirstIsConverted : Prop :=
  ∀ (s : State) (f : Word) (r : Half) (rest : List BusEvent), s.inReset = false → s.cfg.hasS2h = true →
    s2h s.cfg f = .ok r → s.pending = argWrite s.cfg f :: cmdWrite s.cfg .cvtS2h :: rest →
    run 2 s = .next { s with pending := rest, resp := none, arg := f, res := r.zeroExtend 32, err := 0 }

/-! ### Reset (10_state.md R32, 70_reset_and_hazards.md) -/

/-- 10_state.md R32: the state after reset. -/
def Obligations.ResetValues : Prop :=
  State.reset.acc = 0x00 ∧ State.reset.cnt = 0x0000 ∧ State.reset.res = 0x00000000 ∧ State.reset.arg = 0x00000000 ∧
  State.reset.pend = false ∧ State.reset.ckv = false ∧ State.reset.ckok = false ∧ State.reset.err = 0 ∧
  State.reset.estk = false

/-- The reset line (70_reset_and_hazards.md R140): asserted, it keeps the block from answering an access; released, it
gives every element its reset value whatever its value before. That the elements keep their values while it is
asserted is log 4's choice. -/
def Obligations.ResetLineResetsBlock : Prop :=
  ∀ (s : State) (rest : List BusEvent),
    (s.pending = .resetLine true :: rest →
      step s = .next { s with pending := rest, resp := none, inReset := true }) ∧
    (s.inReset = true → s.pending = .resetLine false :: rest →
      step s = .next { State.reset with cfg := s.cfg, pending := rest }) ∧
    (∀ (w : Width) (a : Nat) (v : Word), s.inReset = true → s.cfg.base ≤ a → a ≤ s.cfg.base + 0x1F →
      s.pending = .read w a :: rest ∨ s.pending = .write w a v :: rest → step s = .fault .accessInReset)

/-- 70_reset_and_hazards.md R142: `PL.START` then `ST.CLR` gives, from any state, the state right after reset except for
`RES` and `ARG`, which they leave unchanged and reset sets to 0. -/
def Obligations.StartThenStatusClearIsReset : Prop :=
  ∀ s : State, ∃ t u, exec .plStart s = .next t ∧ exec .stClr t = .next u ∧
    u.res = s.res ∧ u.arg = s.arg ∧ (resetLine false { s with inReset := true }).res = 0 ∧
    (resetLine false { s with inReset := true }).arg = 0 ∧
    { u with res := 0, arg := 0, inReset := false, resp := none } = resetLine false { s with inReset := true }

/-! ### Conversions (40_convert.md) -/

/-- 40_convert.md R80: `CVT.H2S`, its encoding, its effect, its encoding error and its example. -/
def Obligations.CvtH2sWidensImmediate : Prop :=
  ∀ s : State,
    (∀ h : Half, exec (.cvtH2s h) s = .next { s with res := h2s s.cfg.h2sEdge h, err := 0 }) ∧
    (∀ h : Half, execute (0x10000000 ||| h.zeroExtend 32) s = exec (.cvtH2s h) s) ∧
    (∀ v : Word, opField v = 1 → rsvField v ≠ 0 → execute v s = .next { s with err := 2, estk := true }) ∧
    execute 0x10003C00 s = .next { s with res := 0x3F800000, err := 0 }

/-- 40_convert.md R81: the widening function: the four special patterns, the IEEE alternative for the two classes it
is for, and for every other pattern `h[15] ++ (zext_8(h[14:10]) +_8 0x70) ++ h[9:0] ++ 0b0000000000000`. -/
def Obligations.WideningFunction : Prop :=
  (∀ edge, h2s edge 0x0000 = 0x00000000 ∧ h2s edge 0x8000 = 0x80000000 ∧
    h2s edge 0x7C00 = 0x7F800000 ∧ h2s edge 0xFC00 = 0xFF800000) ∧
  (∀ h : Half, h ∉ [(0x0000 : Half), 0x8000, 0x7C00, 0xFC00] →
    h2s .ieee h = (if halfExp h = 0 ∨ halfExp h = 31 then h2sIeee h else h2s .literal h) ∧
    h2s .literal h =
      halfSign h ++ ((halfExp h).zeroExtend 8 + (0x70 : BitVec 8)) ++ halfFrac h ++ (0 : BitVec 13))

/-- 40_convert.md R82: the IEEE widening of a subnormal, by the index of its highest 1 bit, and of a NaN, whose payload
is kept. -/
def Obligations.IeeeWideningOfSubnormalsAndNans : Prop :=
  ∀ h : Half,
    (∀ k : Nat, halfExp h = 0 → (halfFrac h).getLsbD k = true →
      (∀ j, k < j → (halfFrac h).getLsbD j = false) →
      h2s .ieee h = halfSign h ++ BitVec.ofNat 8 (103 + k) ++
        (((halfFrac h).zeroExtend 23 <<< (23 - k)) &&& 0x7FFFFF)) ∧
    (halfExp h = 31 → halfFrac h ≠ 0 →
      h2s .ieee h = halfSign h ++ (0xFF : BitVec 8) ++ halfFrac h ++ (0 : BitVec 13))

/-- Under `H2S_EDGE = IEEE` the widening keeps the real value of every finite binary16 pattern, sign and magnitude,
subnormals included, and gives a finite pattern (40_convert.md R82; the reading of patterns as values is 00_scope.md
R11's, PRESUMED in log 15). -/
def Obligations.IeeeWideningKeepsEveryFiniteValue : Prop :=
  ∀ h : Half, halfExp h ≠ 31 →
    wordMagnitude (h2s .ieee h) = halfMagnitude h ∧ wordSign (h2s .ieee h) = halfSign h ∧ wordExp (h2s .ieee h) ≠ 0xFF

/-- Under both settings a normal pattern is widened to the same pattern, of the same real value (40_convert.md R81; the
reading of patterns as values is 00_scope.md R11's, PRESUMED in log 15). -/
def Obligations.NormalWideningIsExact : Prop :=
  ∀ (edge : H2sEdge) (h : Half), halfIsNormal h = true →
    h2s edge h = h2s .literal h ∧ wordMagnitude (h2s edge h) = halfMagnitude h ∧
    wordSign (h2s edge h) = halfSign h ∧ (wordExp (h2s edge h)).toNat = (halfExp h).toNat + 112

/-- The literal widening of subnormals gives ±2^-15 (1 + m/1024), of NaNs ±2^16 (1 + m/1024), and of no pattern a NaN
(40_convert.md R81, R85; magnitudes in multiples of 2^-149, log 15). -/
def Obligations.LiteralWideningOfEdgeClasses : Prop :=
  ∀ h : Half,
    (halfExp h = 0 → halfFrac h ≠ 0 →
      wordMagnitude (h2s .literal h) = (1024 + (halfFrac h).toNat) * 2 ^ 124) ∧
    (halfExp h = 31 → halfFrac h ≠ 0 →
      wordMagnitude (h2s .literal h) = (1024 + (halfFrac h).toNat) * 2 ^ 155) ∧
    wordIsNaN (h2s .literal h) = false

/-- Every conversion keeps the sign bit, on zero, infinity, clamp and flush too (40_convert.md R85). -/
def Obligations.ConversionsKeepSign : Prop :=
  (∀ (edge : H2sEdge) (h : Half), wordSign (h2s edge h) = halfSign h) ∧
  (∀ (c : Config) (f : Word) (r : Half), s2h c f = .ok r → halfSign r = wordSign f)

/-- `CVT.S2H`, its presence, its effect, its two errors and its example (40_convert.md R83). R83 says of the word 0x20000000
that it raises `ILLOP` where `HAS_S2H` is false; that the meaning itself does so too is the model's choice, log 16. -/
def Obligations.CvtS2hNarrowsArg : Prop :=
  ∀ s : State,
    (s.cfg.hasS2h = false → execute 0x20000000 s = .next { s with err := 1, estk := true } ∧
      exec .cvtS2h s = .next { s with err := 1, estk := true }) ∧
    (s.cfg.hasS2h = true →
      execute 0x20000000 s = exec .cvtS2h s ∧
      (∀ v, opField v = 2 → v ≠ 0x20000000 → execute v s = .next { s with err := 2, estk := true }) ∧
      (wordExp s.arg = 0xFF ∧ wordFrac s.arg ≠ 0 →
        exec .cvtS2h s = .next { s with err := 3, estk := true }) ∧
      (wordExp s.arg ≠ 0xFF ∨ wordFrac s.arg = 0 →
        ∃ r, s2h s.cfg s.arg = .ok r ∧ exec .cvtS2h s = .next { s with res := r.zeroExtend 32, err := 0 }) ∧
      (s.arg = 0x3F800000 → s.cfg.s2hTiny = 0x33800000 →
        exec .cvtS2h s = .next { s with res := 0x00003C00, err := 0 }))

/-- 40_convert.md R84: the narrowing function, case by case; the re-biased exponent field is (E - 112) mod 32; a binary32
subnormal is flushed for any `S2H_TINY` above 0x00800000. -/
def Obligations.NarrowingFunction : Prop :=
  ∀ (c : Config) (f : Word),
    (s2h c f = .error .nan ↔ wordExp f = 0xFF ∧ wordFrac f ≠ 0) ∧
    (wordExp f = 0xFF → wordFrac f = 0 →
      s2h c f = .ok (wordSign f ++ (match c.s2hInf with | .clamp => (0x7BFF : BitVec 15) | .inf => 0x7C00))) ∧
    (wordExp f ≠ 0xFF → 0x477FE000 < wordMag f → s2h c f = .ok (wordSign f ++ (0x7BFF : BitVec 15))) ∧
    (wordMag f = 0 →
      s2h c f = .ok (wordSign f ++ (match c.s2hZero with | .zero => (0x0000 : BitVec 15) | .flush => 0x0001))) ∧
    (wordMag f ≤ 0x477FE000 → wordMag f ≠ 0 → wordMag f < c.s2hTiny →
      s2h c f = .ok (wordSign f ++ (0x0001 : BitVec 15))) ∧
    (wordMag f ≤ 0x477FE000 → wordMag f ≠ 0 → c.s2hTiny ≤ wordMag f →
      s2h c f = .ok (wordSign f ++ (wordExp f - 112).extractLsb' 0 5 ++ (wordFrac f).extractLsb' 13 10)) ∧
    (wordExp f = 0 → wordFrac f ≠ 0 → 0x00800000 < c.s2hTiny →
      s2h c f = .ok (wordSign f ++ (0x0001 : BitVec 15)))

/-- In the range of normal binary16 numbers the narrowing truncates the magnitude toward zero: the result is the
largest one not above it (40_convert.md R84, R85; values as in log 15). -/
def Obligations.NarrowingTruncatesTowardZero : Prop :=
  ∀ (c : Config) (f : Word), 0x38800000 ≤ wordMag f → wordMag f ≤ 0x477FE000 → c.s2hTiny ≤ wordMag f →
    ∃ r, s2h c f = .ok r ∧ halfIsNormal r = true ∧ halfMagnitude r ≤ wordMagnitude f ∧
      wordMagnitude f < halfMagnitude r + 2 ^ ((halfExp r).toNat - 1) * 2 ^ 125

/-- Narrowing a widened normal pattern gives it back, under every parameter setting whose flush threshold is not above
the smallest normal, 2^-14 (40_convert.md R81, R84, R86). -/
def Obligations.NormalPatternsRoundTrip : Prop :=
  ∀ (c : Config) (h : Half), halfIsNormal h = true → c.s2hTiny ≤ 0x38800000 →
    s2h c (h2s c.h2sEdge h) = .ok h

/-- 40_convert.md R86: the round-trip table under the default parameters. -/
def Obligations.RoundTripTable : Prop :=
  (∀ row ∈ [((0x00000000 : Word), (0x0000 : Half), (0x00000000 : Word), (0x00000000 : Word)),
      (0x80000000, 0x8000, 0x80000000, 0x80000000), (0x3F800000, 0x3C00, 0x3F800000, 0x3F800000),
      (0xBF800000, 0xBC00, 0xBF800000, 0xBF800000), (0x477FE000, 0x7BFF, 0x477FE000, 0x477FE000),
      (0x337FFAE5, 0x0001, 0x38002000, 0x33800000)],
    s2h Config.default row.1 = .ok row.2.1 ∧ h2s .literal row.2.1 = row.2.2.1 ∧ h2s .ieee row.2.1 = row.2.2.2)

/-! ### Checksum (41_checksum.md) -/

/-- 41_checksum.md R90: `CK.CLR`. -/
def Obligations.CkClrClearsAccumulatorAndVerdict : Prop :=
  ∀ s : State,
    exec .ckClr s = .next { s with acc := 0x00, ckv := false, ckok := false, err := 0 } ∧
    execute 0x30000000 s = exec .ckClr s ∧
    (∀ v : Word, opField v = 3 → v ≠ 0x30000000 → execute v s = .next { s with err := 2, estk := true })

/-- 41_checksum.md R91: `CK.ACC`. -/
def Obligations.CkAccAddsByte : Prop :=
  ∀ s : State,
    (∀ b : Byte, exec (.ckAcc b) s = .next { s with acc := s.acc + b, err := 0 }) ∧
    (∀ b : Byte, execute (0x40000000 ||| b.zeroExtend 32) s = exec (.ckAcc b) s) ∧
    (∀ v : Word, opField v = 4 → (rsvField v ≠ 0 ∨ immHi v ≠ 0) →
      execute v s = .next { s with err := 2, estk := true }) ∧
    (s.acc = 0xFF → execute 0x40000002 s = .next { s with acc := 0x01, err := 0 })

/-- 41_checksum.md R92: `CK.CMP`. A mismatch is not an error. -/
def Obligations.CkCmpGivesVerdict : Prop :=
  ∀ s : State,
    (∀ c : Byte, exec (.ckCmp c) s = .next { s with ckv := true, ckok := decide (s.acc = c), err := 0 }) ∧
    (∀ c : Byte, execute (0x50000000 ||| c.zeroExtend 32) s = exec (.ckCmp c) s) ∧
    (∀ v : Word, opField v = 5 → (rsvField v ≠ 0 ∨ immHi v ≠ 0) →
      execute v s = .next { s with err := 2, estk := true }) ∧
    (s.acc = 0x3C → execute 0x5000003C s = .next { s with ckv := true, ckok := true, err := 0 } ∧
      execute 0x5000003D s = .next { s with ckv := true, ckok := false, err := 0 })

/-- After a command that clears `ACC`, or wherever `ACC` is 0 as after reset, a sequence of commands that do not clear it
leaves in `ACC` the checksum of the bytes they accumulate, in any order and mixed with any other commands
(41_checksum.md R94). -/
def Obligations.AccumulatorHoldsChecksum : Prop :=
  ∀ (s : State) (is : List Instr) (rest : List BusEvent), s.inReset = false → (∀ i ∈ is, clearsAcc i = false) →
    (s.acc = 0 → s.pending = is.map (cmdWrite s.cfg) ++ rest →
      ∃ t, run is.length s = .next t ∧ t.pending = rest ∧ t.acc = checksum (accumulatedBytes is)) ∧
    (∀ i₀ : Instr, clearsAcc i₀ = true → s.pending = (i₀ :: is).map (cmdWrite s.cfg) ++ rest →
      ∃ t, run (is.length + 1) s = .next t ∧ t.pending = rest ∧ t.acc = checksum (accumulatedBytes is))

/-- The checksum does not depend on the order of the bytes (41_checksum.md R94). -/
def Obligations.ChecksumIgnoresOrder : Prop :=
  ∀ p q : List Byte, p.Perm q → checksum p = checksum q

/-- Changing one byte to a different value changes the checksum, so a single corrupted byte is always detected
(41_checksum.md R94). -/
def Obligations.SingleCorruptionChangesChecksum : Prop :=
  ∀ (p : List Byte) (i : Nat) (hi : i < p.length) (b : Byte), b ≠ p[i] → checksum (p.set i b) ≠ checksum p

/-! ### Payload stream (42_stream.md) -/

/-- 42_stream.md R101: `PL.START`. -/
def Obligations.PlStartStartsFrame : Prop :=
  ∀ s : State,
    exec .plStart s =
      .next { s with acc := 0x00, cnt := 0x0000, latch := none, ckv := false, ckok := false, err := 0 } ∧
    execute 0x60000000 s = exec .plStart s ∧
    (∀ v : Word, opField v = 6 → v ≠ 0x60000000 → execute v s = .next { s with err := 2, estk := true })

/-- 42_stream.md R102: `PL.BYTE`, on the first and on the second byte of a word. -/
def Obligations.PlByteSumsAndPairs : Prop :=
  ∀ s : State,
    (∀ b : Byte, s.latch = none →
      exec (.plByte b) s = .next { s with acc := s.acc + b, latch := some b, err := 0 }) ∧
    (∀ hi b : Byte, s.latch = some hi →
      exec (.plByte b) s = .next
        { s with acc := s.acc + b, res := h2s s.cfg.h2sEdge (hi ++ b), latch := none, cnt := s.cnt + 1, err := 0 }) ∧
    (∀ b : Byte, execute (0x70000000 ||| b.zeroExtend 32) s = exec (.plByte b) s) ∧
    (∀ v : Word, opField v = 7 → (rsvField v ≠ 0 ∨ immHi v ≠ 0) →
      execute v s = .next { s with err := 2, estk := true }) ∧
    (s.latch = some 0x3C →
      execute 0x70000000 s = .next { s with res := 0x3F800000, latch := none, cnt := s.cnt + 1, err := 0 })

/-- 42_stream.md R103: `PL.END`. A pending byte is dropped without being widened, and stays in `ACC`. -/
def Obligations.PlEndChecksAndDrops : Prop :=
  ∀ s : State,
    (∀ c : Byte, exec (.plEnd c) s =
      .next { s with ckv := true, ckok := decide (s.acc = c), latch := none, err := 0 }) ∧
    (∀ c : Byte, execute (0x80000000 ||| c.zeroExtend 32) s = exec (.plEnd c) s) ∧
    (∀ v : Word, opField v = 8 → (rsvField v ≠ 0 ∨ immHi v ≠ 0) →
      execute v s = .next { s with err := 2, estk := true }) ∧
    (s.acc = 0x3C →
      execute 0x8000003C s = .next { s with ckv := true, ckok := true, latch := none, err := 0 } ∧
      execute 0x8000003D s = .next { s with ckv := true, ckok := false, latch := none, err := 0 })

/-- 42_stream.md R104: the frame law, for a payload and a trailing byte fed from any state. -/
def Obligations.FrameLaw : Prop :=
  ∀ (s : State) (p : List Byte) (c : Byte) (rest : List BusEvent), s.inReset = false →
    s.pending = feedFrame s.cfg p c ++ rest →
    (∃ t, run (p.length + 2) s = .next t ∧ t.pending = rest ∧ t.acc = checksum p ∧ t.ckv = true ∧
      (t.ckok = true ↔ checksum p = c) ∧ t.cnt.toNat = p.length / 2 % 65536 ∧ t.pend = false) ∧
    (∀ (i : Nat) (h : 2 * i + 1 < p.length), ∃ t, run (2 * i + 3) s = .next t ∧
      t.res = h2s s.cfg.h2sEdge (p[2 * i] ++ p[2 * i + 1])) ∧
    (∀ h : 2 ≤ p.length, ∃ t, run (p.length + 1) s = .next t ∧
      t.res = h2s s.cfg.h2sEdge (p[2 * (p.length / 2) - 2] ++ p[2 * (p.length / 2) - 1])) ∧
    (p.length < 2 → ∃ t, run (p.length + 1) s = .next t ∧ t.res = s.res)

/-! ### Status and errors (43_status.md, 60_exceptions.md) -/

/-- 43_status.md R110: `ST.CLR`; a malformed one sets `ESTK` instead of clearing it. -/
def Obligations.StClrClearsErrorReport : Prop :=
  ∀ s : State,
    exec .stClr s = .next { s with err := 0, estk := false } ∧
    execute 0x90000000 s = exec .stClr s ∧
    (∀ v : Word, opField v = 9 → v ≠ 0x90000000 → execute v s = .next { s with err := 2, estk := true }) ∧
    (readReg s .status = 0x00000110 → ∃ t, execute 0x90000000 s = .next t ∧ readReg t .status = 0x00000000)

/-- 60_exceptions.md R128: a `CMD` write, whatever its word and whatever errors came before, is carried out and leaves the
block ready for the next; an error while `ESTK` is 1 overwrites `ERR` and leaves `ESTK` at 1. -/
def Obligations.ErrorsNeverStopTheBlock : Prop :=
  ∀ (s : State) (v : Word) (rest : List BusEvent), s.inReset = false → s.pending = cmdWordWrite s.cfg v :: rest →
    ∃ t, step s = .next t ∧ t.inReset = false ∧ t.pending = rest ∧ t.cfg = s.cfg ∧
      (∀ e, commandError s.cfg s.arg v = some e →
        t = { s with pending := rest, resp := none, err := errorCode e, estk := true })

/-- 43_status.md R111: after a run of commands, everything but the error report is what the commands that raised no error
give alone, and from a cleared report `ESTK` tells whether any command of the run failed. -/
def Obligations.FailedCommandsLeaveNoTrace : Prop :=
  ∀ (s : State) (vs : List Word), s.inReset = false →
    ∃ t u,
      run vs.length { s with pending := wordWrites s.cfg vs } = .next t ∧
      run (successful s.cfg s.arg vs).length
        { s with pending := wordWrites s.cfg (successful s.cfg s.arg vs) } = .next u ∧
      t.acc = u.acc ∧ t.cnt = u.cnt ∧ t.res = u.res ∧ t.arg = u.arg ∧ t.latch = u.latch ∧ t.ckv = u.ckv ∧
      t.ckok = u.ckok ∧
      (s.estk = false → 0x90000000 ∉ vs → t.estk = vs.any fun v => (commandError s.cfg s.arg v).isSome)

/-! ### Frames, read sets and writers (10_state.md R22, R33) -/

/-- What each command leaves unchanged (10_state.md R33): the frame of all nine. -/
def Obligations.CommandsWriteOnlyTheirWriteSet : Prop :=
  ∀ (i : Instr) (s t : State), exec i s = .next t →
    (i.opcode ∉ [.ckClr, .ckAcc, .plStart, .plByte] → t.acc = s.acc) ∧
    (i.opcode ∉ [.plStart, .plByte] → t.cnt = s.cnt) ∧
    (i.opcode ∉ [.cvtH2s, .cvtS2h, .plByte] → t.res = s.res) ∧
    t.arg = s.arg ∧
    (i.opcode ∉ [.plStart, .plByte, .plEnd] → t.latch = s.latch) ∧
    (i.opcode ∉ [.ckClr, .ckCmp, .plStart, .plEnd] → t.ckv = s.ckv ∧ t.ckok = s.ckok) ∧
    (i.opcode ∉ [.cvtS2h, .stClr] → t.estk = s.estk ∧ t.err = 0) ∧
    t.cfg = s.cfg ∧ t.inReset = s.inReset ∧ t.pending = s.pending ∧ t.resp = s.resp

/-- What each command reads (10_state.md R33): two states that agree on a command's read set and parameters agree after
it on all that it wrote, whatever else they hold. `RES` and `ESTK`, which a command writes on some operands only, are
either the same after it or left as they were in both. -/
def Obligations.CommandsReadOnlyTheirReadSet : Prop :=
  ∀ (i : Instr) (s s' t t' : State), s.cfg = s'.cfg →
    (i.opcode ∈ [.ckAcc, .ckCmp, .plByte, .plEnd] → s.acc = s'.acc) →
    (i.opcode = .plByte → s.cnt = s'.cnt ∧ s.latch = s'.latch) →
    (i.opcode = .cvtS2h → s.arg = s'.arg) →
    exec i s = .next t → exec i s' = .next t' →
    t.err = t'.err ∧
    (i.opcode ∈ [.ckClr, .ckAcc, .plStart, .plByte] → t.acc = t'.acc) ∧
    (i.opcode ∈ [.plStart, .plByte] → t.cnt = t'.cnt) ∧
    (t.res = t'.res ∨ (t.res = s.res ∧ t'.res = s'.res)) ∧
    (i.opcode = .cvtH2s → t.res = t'.res) ∧
    (i.opcode ∈ [.plStart, .plByte, .plEnd] → t.latch = t'.latch) ∧
    (i.opcode ∈ [.ckClr, .ckCmp, .plStart, .plEnd] → t.ckv = t'.ckv ∧ t.ckok = t'.ckok) ∧
    (t.estk = t'.estk ∨ (t.estk = s.estk ∧ t'.estk = s'.estk)) ∧
    (i.opcode = .stClr → t.estk = t'.estk)

/-- 10_state.md R22, its column "Written by", over every step of the machine: an element changes only when its event is
a listed command, for `ARG` a write to it, or the release of reset; and `ESTK` only ever falls by `ST.CLR` or reset. -/
def Obligations.OnlyListedWritersChangeAnElement : Prop :=
  ∀ s t : State, step s = .next t →
    let ran (ops : List Opcode) : Prop :=
      ∃ v i rest, s.pending = cmdWordWrite s.cfg v :: rest ∧ decode s.cfg.hasS2h v = .ok i ∧ i.opcode ∈ ops
    let released : Prop := s.inReset = true ∧ ∃ rest, s.pending = .resetLine false :: rest
    (t.acc ≠ s.acc → ran [.ckClr, .ckAcc, .plStart, .plByte] ∨ released) ∧
    (t.cnt ≠ s.cnt → ran [.plStart, .plByte] ∨ released) ∧
    (t.res ≠ s.res → ran [.cvtH2s, .cvtS2h, .plByte] ∨ released) ∧
    (t.arg ≠ s.arg → (∃ v rest, s.pending = argWrite s.cfg v :: rest) ∨ released) ∧
    (t.pend ≠ s.pend → ran [.plStart, .plByte, .plEnd] ∨ released) ∧
    (t.latch ≠ s.latch → t.pend = true → ran [.plByte]) ∧
    (t.ckv ≠ s.ckv → ran [.ckClr, .ckCmp, .plStart, .plEnd] ∨ released) ∧
    (t.ckok ≠ s.ckok → ran [.ckClr, .ckCmp, .plStart, .plEnd] ∨ released) ∧
    (t.err ≠ s.err → (∃ v rest, s.pending = cmdWordWrite s.cfg v :: rest) ∨ released) ∧
    (s.estk = false → t.estk = true →
      ∃ v e rest, s.pending = cmdWordWrite s.cfg v :: rest ∧ commandError s.cfg s.arg v = some e) ∧
    (s.estk = true → t.estk = false → ran [.stClr] ∨ released)

/-! ### Invariants and safety -/

/-- Every step keeps the promises of the register map: `CKOK` is 0 whenever `CKV` is 0, `ERR` is 0 to 3, and an error that
still shows is also sticky (10_state.md R28, R29, R31). -/
def Obligations.StepKeepsStateLegal : Prop :=
  ∀ s t : State, s.Legal → step s = .next t → t.Legal

/-- The state after reset meets the invariant of `StepKeepsStateLegal` (10_state.md R32). -/
def Obligations.ResetStateIsLegal : Prop := State.reset.Legal

/-- No event changes the parameters, over runs of any length. This is the model's choice, log 1: 00_scope.md R6 lists the
parameters, and State carries them in a field that no event writes. -/
def Obligations.ParametersNeverChange : Prop :=
  ∀ (n : Nat) (s t : State), run n s = .next t → t.cfg = s.cfg

/-- A host's sequence of accesses reaches its end exactly when each of them is one the spec gives a step
(20_memory.md R41 to R43, 70_reset_and_hazards.md R140); otherwise the run ends in a fault. That an access of any width
whose own address is outside the window has a step is the model's reading, log 8; the two events of the reset line are
log 4's, and the faults for the accesses without a step log 6's. -/
def Obligations.ServableSequencesRunToTheirEnd : Prop :=
  ∀ s : State,
    (servable s.cfg s.inReset s.pending = true →
      ∃ t, run s.pending.length s = .next t ∧ t.pending = []) ∧
    (servable s.cfg s.inReset s.pending = false → ∃ r, run s.pending.length s = .fault r)

/-- The instances of a platform share no state (60_exceptions.md R134): a step of one is its own step and leaves every
other as it was. -/
def Obligations.InstancesShareNoState : Prop :=
  ∀ (p q : Platform) (k : Nat), p.stepAt k = .next q →
    q.blocks.length = p.blocks.length ∧
    (∀ j, j ≠ k → q.blocks[j]? = p.blocks[j]?) ∧
    (∀ s, p.blocks[k]? = some s → ∃ t, step s = .next t ∧ q.blocks[k]? = some t)

/-! ### The host's side (30_encoding.md R67, R68; 20_memory.md R55 to R57; 00_scope.md R12) -/

/-- 30_encoding.md R68: what each pseudo-command expands to, as host accesses. -/
def Obligations.PseudoCommandsExpand : Prop :=
  ∀ c : Config,
    (∀ hi lo : Byte, (expand (.cvtH2sBe hi.toNat lo.toNat)).bind (assemble c) =
      some [cmdWrite c (.cvtH2s (hi ++ lo))]) ∧
    (∀ v : Word, (expand (.s2h v.toNat)).bind (assemble c) = some [argWrite c v, cmdWrite c .cvtS2h]) ∧
    (∀ bs : List Byte, (expand (.ckSum (bs.map BitVec.toNat))).bind (assemble c) =
      some (cmdWrite c .ckClr :: bs.map fun b => cmdWrite c (.ckAcc b))) ∧
    (∀ (bs : List Byte) (t : Byte), (expand (.plFrame (bs.map BitVec.toNat) t.toNat)).bind (assemble c) =
      some (cmdWrite c .plStart :: (bs.map fun b => cmdWrite c (.plByte b)) ++ [cmdWrite c (.plEnd t)]))

/-- For each command with an immediate, the four of form B8 and the one of form H16: an immediate that does not fit its
form is an assembly error, and one that fits is put in place (30_encoding.md R67; a line as its parts, not as text, is
log 18's choice). -/
def Obligations.ImmediatesThatDoNotFitAreErrors : Prop :=
  ∀ (c : Config) (n : Nat),
    (∀ row ∈ [(AsmLine.ckAcc n, (0x40000000 : Word)), (.ckCmp n, 0x50000000), (.plByte n, 0x70000000),
        (.plEnd n, 0x80000000)],
      (assembleLine c row.1 = none ↔ 0x100 ≤ n) ∧
      (n < 0x100 → assembleLine c row.1 = some (.write .w32 c.base (row.2 ||| BitVec.ofNat 32 n)))) ∧
    (assembleLine c (.cvtH2s n) = none ↔ 0x10000 ≤ n) ∧
    (n < 0x10000 → assembleLine c (.cvtH2s n) = some (.write .w32 c.base (0x10000000 ||| BitVec.ofNat 32 n)))

/-- A buffer that passes the host's structural checks holds its whole payload and its trailing byte (20_memory.md R55,
R56; the host's side, log 17). -/
def Obligations.CheckedFramesHoldTheirPayload : Prop :=
  ∀ b : List Byte, structuralCheck (some b) = none →
    (framePayload b).length = declaredLength b ∧ 13 + declaredLength b < b.length ∧
    (∀ i (h : i < (framePayload b).length), b[13 + i]? = some (framePayload b)[i]) ∧
    b[13 + declaredLength b]? = some (frameTrailer b)

/-- A host that checks a buffer and feeds it to the block, whatever the block's state, learns success exactly when the
trailing byte is the checksum of the payload, and a checksum mismatch otherwise (00_scope.md R12, 20_memory.md R56, R57,
42_stream.md R104; log 17). -/
def Obligations.HostLearnsChecksumOutcome : Prop :=
  ∀ (b : List Byte) (s : State), s.inReset = false → structuralCheck (some b) = none →
    hostDecode (some b) s =
      some (if checksum (framePayload b) = frameTrailer b then .success else .checksumMismatch)
end

