-- ==== Sys2Proof/Laws/Encoding.lean ====
section
/-! SUPPORT. The fields of an encoded command (30_encoding.md R60 to R67), and what the decoder answers. -/

namespace Sys2Proof

/-- The value of `OP` that spells each command (30_encoding.md R62). -/
def opNumber : Opcode → BitVec 4
  | .cvtH2s  => 1
  | .cvtS2h  => 2
  | .ckClr   => 3
  | .ckAcc   => 4
  | .ckCmp   => 5
  | .plStart => 6
  | .plByte  => 7
  | .plEnd   => 8
  | .stClr   => 9

theorem immBits_lt (i : Instr) : i.immBits.toNat < 2 ^ 16 := by
  cases i <;> simp only [Instr.immBits, BitVec.toNat_setWidth, BitVec.truncate_eq_setWidth] <;> simp <;> omega

/-- A command's operand lies below bit 16, so the bits above are those of its match. -/
theorem encode_extract_high (i : Instr) (start len : Nat) (h : 16 ≤ start) :
    (encode i).extractLsb' start len = i.opcode.matchBits.extractLsb' start len := by
  have hz : i.immBits.extractLsb' start len = 0#len := by
    apply BitVec.eq_of_toNat_eq
    have hlt := immBits_lt i
    have hpow : 2 ^ 16 ≤ 2 ^ start := Nat.pow_le_pow_right (by decide) h
    simp [BitVec.extractLsb'_toNat, Nat.shiftRight_eq_div_pow, Nat.div_eq_of_lt (Nat.lt_of_lt_of_le hlt hpow)]
  rw [encode, BitVec.extractLsb'_or, hz, BitVec.or_zero]

@[simp] theorem opField_encode (i : Instr) : opField (encode i) = opNumber i.opcode := by
  rw [opField, encode_extract_high i 28 4 (by decide)]
  generalize i.opcode = op
  cases op <;> rfl

@[simp] theorem rsvField_encode (i : Instr) : rsvField (encode i) = 0 := by
  rw [rsvField, encode_extract_high i 16 12 (by decide)]
  generalize i.opcode = op
  cases op <;> rfl

/-- `IMM` of an encoded command is its operand, zero-extended. -/
theorem immField_encode (i : Instr) : immField (encode i) = i.immBits.extractLsb' 0 16 := by
  have hz : i.opcode.matchBits.extractLsb' 0 16 = 0#16 := by
    generalize i.opcode = op
    cases op <;> rfl
  rw [immField, encode, BitVec.extractLsb'_or, hz, BitVec.zero_or]

/-- A byte operand is `IMM[7:0]`, and `IMM[15:8]` is 0 (30_encoding.md R61). -/
theorem byte_fields (m : Word) (b : Byte) (hlo : immLo m = 0) (hhi : immHi m = 0) :
    immLo (m ||| b.zeroExtend 32) = b ∧ immHi (m ||| b.zeroExtend 32) = 0 := by
  constructor
  · rw [immLo, BitVec.extractLsb'_or, show m.extractLsb' 0 8 = 0#8 from hlo, BitVec.zero_or]
    ext k hk
    simp [hk, Nat.lt_trans hk (by decide : 8 < 32)]
  · rw [immHi, BitVec.extractLsb'_or, show m.extractLsb' 8 8 = 0#8 from hhi, BitVec.zero_or]
    ext k hk
    simp

/-- What `decode` answers, in the order of its checks (30_encoding.md R65). -/
theorem decode_cases (hasS2h : Bool) (v : Word) :
    (opcodeOf hasS2h (opField v) = none ∧ decode hasS2h v = .error .illop) ∨
    (∃ op, opcodeOf hasS2h (opField v) = some op ∧ ¬(rsvField v = 0 ∧ op.form.immOk v = true) ∧
      decode hasS2h v = .error .rsvbits) ∨
    (∃ op, opcodeOf hasS2h (opField v) = some op ∧ rsvField v = 0 ∧ op.form.immOk v = true ∧
      decode hasS2h v = .ok (op.instr v)) := by
  unfold decode
  split
  · next h => exact .inl ⟨h, rfl⟩
  · next op h =>
    split
    · next hc => exact .inr (.inr ⟨op, h, hc.1, hc.2, rfl⟩)
    · next hc => exact .inr (.inl ⟨op, h, hc, rfl⟩)

/-- A decoding error is `ILLOP` or `RSVBITS`, never `NAN` (60_exceptions.md R120). -/
theorem decode_error_ne_nan (hasS2h : Bool) (v : Word) : decode hasS2h v ≠ .error .nan := by
  rcases decode_cases hasS2h v with ⟨_, h⟩ | ⟨_, _, _, h⟩ | ⟨_, _, _, _, h⟩ <;> rw [h] <;> simp

end Sys2Proof
end

