-- ==== Sys2Proof/Laws/State.lean ====
section
/-! SUPPORT. One lemma per field per update of State: what each operation of the model leaves in each field. -/

namespace Sys2Proof.Machine

open Sys2Proof

section
variable (s : State)

@[simp] theorem State.complete_acc : s.complete.acc = s.acc := rfl
@[simp] theorem State.complete_cnt : s.complete.cnt = s.cnt := rfl
@[simp] theorem State.complete_res : s.complete.res = s.res := rfl
@[simp] theorem State.complete_arg : s.complete.arg = s.arg := rfl
@[simp] theorem State.complete_latch : s.complete.latch = s.latch := rfl
@[simp] theorem State.complete_ckv : s.complete.ckv = s.ckv := rfl
@[simp] theorem State.complete_ckok : s.complete.ckok = s.ckok := rfl
@[simp] theorem State.complete_err : s.complete.err = 0 := rfl
@[simp] theorem State.complete_estk : s.complete.estk = s.estk := rfl
@[simp] theorem State.complete_cfg : s.complete.cfg = s.cfg := rfl
@[simp] theorem State.complete_inReset : s.complete.inReset = s.inReset := rfl
@[simp] theorem State.complete_pending : s.complete.pending = s.pending := rfl
@[simp] theorem State.complete_resp : s.complete.resp = s.resp := rfl

end

section
variable (s : State) (e : CmdError)

@[simp] theorem State.raise_acc : (s.raise e).acc = s.acc := rfl
@[simp] theorem State.raise_cnt : (s.raise e).cnt = s.cnt := rfl
@[simp] theorem State.raise_res : (s.raise e).res = s.res := rfl
@[simp] theorem State.raise_arg : (s.raise e).arg = s.arg := rfl
@[simp] theorem State.raise_latch : (s.raise e).latch = s.latch := rfl
@[simp] theorem State.raise_ckv : (s.raise e).ckv = s.ckv := rfl
@[simp] theorem State.raise_ckok : (s.raise e).ckok = s.ckok := rfl
@[simp] theorem State.raise_err : (s.raise e).err = errorCode e := rfl
@[simp] theorem State.raise_estk : (s.raise e).estk = true := rfl
@[simp] theorem State.raise_cfg : (s.raise e).cfg = s.cfg := rfl
@[simp] theorem State.raise_inReset : (s.raise e).inReset = s.inReset := rfl
@[simp] theorem State.raise_pending : (s.raise e).pending = s.pending := rfl
@[simp] theorem State.raise_resp : (s.raise e).resp = s.resp := rfl

end

section
variable (s : State)

@[simp] theorem State.clearErrors_acc : s.clearErrors.acc = s.acc := rfl
@[simp] theorem State.clearErrors_cnt : s.clearErrors.cnt = s.cnt := rfl
@[simp] theorem State.clearErrors_res : s.clearErrors.res = s.res := rfl
@[simp] theorem State.clearErrors_arg : s.clearErrors.arg = s.arg := rfl
@[simp] theorem State.clearErrors_latch : s.clearErrors.latch = s.latch := rfl
@[simp] theorem State.clearErrors_ckv : s.clearErrors.ckv = s.ckv := rfl
@[simp] theorem State.clearErrors_ckok : s.clearErrors.ckok = s.ckok := rfl
@[simp] theorem State.clearErrors_err : s.clearErrors.err = 0 := rfl
@[simp] theorem State.clearErrors_estk : s.clearErrors.estk = false := rfl
@[simp] theorem State.clearErrors_cfg : s.clearErrors.cfg = s.cfg := rfl
@[simp] theorem State.clearErrors_inReset : s.clearErrors.inReset = s.inReset := rfl
@[simp] theorem State.clearErrors_pending : s.clearErrors.pending = s.pending := rfl
@[simp] theorem State.clearErrors_resp : s.clearErrors.resp = s.resp := rfl

end

section
variable (s : State) (b : Byte)

@[simp] theorem State.accumulate_acc : (s.accumulate b).acc = s.acc + b := rfl
@[simp] theorem State.accumulate_cnt : (s.accumulate b).cnt = s.cnt := rfl
@[simp] theorem State.accumulate_res : (s.accumulate b).res = s.res := rfl
@[simp] theorem State.accumulate_arg : (s.accumulate b).arg = s.arg := rfl
@[simp] theorem State.accumulate_latch : (s.accumulate b).latch = s.latch := rfl
@[simp] theorem State.accumulate_ckv : (s.accumulate b).ckv = s.ckv := rfl
@[simp] theorem State.accumulate_ckok : (s.accumulate b).ckok = s.ckok := rfl
@[simp] theorem State.accumulate_err : (s.accumulate b).err = s.err := rfl
@[simp] theorem State.accumulate_estk : (s.accumulate b).estk = s.estk := rfl
@[simp] theorem State.accumulate_cfg : (s.accumulate b).cfg = s.cfg := rfl
@[simp] theorem State.accumulate_inReset : (s.accumulate b).inReset = s.inReset := rfl
@[simp] theorem State.accumulate_pending : (s.accumulate b).pending = s.pending := rfl
@[simp] theorem State.accumulate_resp : (s.accumulate b).resp = s.resp := rfl

end

section
variable (s : State)

@[simp] theorem State.clearVerdict_acc : s.clearVerdict.acc = s.acc := rfl
@[simp] theorem State.clearVerdict_cnt : s.clearVerdict.cnt = s.cnt := rfl
@[simp] theorem State.clearVerdict_res : s.clearVerdict.res = s.res := rfl
@[simp] theorem State.clearVerdict_arg : s.clearVerdict.arg = s.arg := rfl
@[simp] theorem State.clearVerdict_latch : s.clearVerdict.latch = s.latch := rfl
@[simp] theorem State.clearVerdict_ckv : s.clearVerdict.ckv = false := rfl
@[simp] theorem State.clearVerdict_ckok : s.clearVerdict.ckok = false := rfl
@[simp] theorem State.clearVerdict_err : s.clearVerdict.err = s.err := rfl
@[simp] theorem State.clearVerdict_estk : s.clearVerdict.estk = s.estk := rfl
@[simp] theorem State.clearVerdict_cfg : s.clearVerdict.cfg = s.cfg := rfl
@[simp] theorem State.clearVerdict_inReset : s.clearVerdict.inReset = s.inReset := rfl
@[simp] theorem State.clearVerdict_pending : s.clearVerdict.pending = s.pending := rfl
@[simp] theorem State.clearVerdict_resp : s.clearVerdict.resp = s.resp := rfl

end

section
variable (s : State)

@[simp] theorem State.clearChecksum_acc : s.clearChecksum.acc = 0 := rfl
@[simp] theorem State.clearChecksum_cnt : s.clearChecksum.cnt = s.cnt := rfl
@[simp] theorem State.clearChecksum_res : s.clearChecksum.res = s.res := rfl
@[simp] theorem State.clearChecksum_arg : s.clearChecksum.arg = s.arg := rfl
@[simp] theorem State.clearChecksum_latch : s.clearChecksum.latch = s.latch := rfl
@[simp] theorem State.clearChecksum_ckv : s.clearChecksum.ckv = false := rfl
@[simp] theorem State.clearChecksum_ckok : s.clearChecksum.ckok = false := rfl
@[simp] theorem State.clearChecksum_err : s.clearChecksum.err = s.err := rfl
@[simp] theorem State.clearChecksum_estk : s.clearChecksum.estk = s.estk := rfl
@[simp] theorem State.clearChecksum_cfg : s.clearChecksum.cfg = s.cfg := rfl
@[simp] theorem State.clearChecksum_inReset : s.clearChecksum.inReset = s.inReset := rfl
@[simp] theorem State.clearChecksum_pending : s.clearChecksum.pending = s.pending := rfl
@[simp] theorem State.clearChecksum_resp : s.clearChecksum.resp = s.resp := rfl

end

section
variable (s : State) (c : Byte)

@[simp] theorem State.compareChecksum_acc : (s.compareChecksum c).acc = s.acc := rfl
@[simp] theorem State.compareChecksum_cnt : (s.compareChecksum c).cnt = s.cnt := rfl
@[simp] theorem State.compareChecksum_res : (s.compareChecksum c).res = s.res := rfl
@[simp] theorem State.compareChecksum_arg : (s.compareChecksum c).arg = s.arg := rfl
@[simp] theorem State.compareChecksum_latch : (s.compareChecksum c).latch = s.latch := rfl
@[simp] theorem State.compareChecksum_ckv : (s.compareChecksum c).ckv = true := rfl
@[simp] theorem State.compareChecksum_ckok : (s.compareChecksum c).ckok = (s.acc == c) := rfl
@[simp] theorem State.compareChecksum_err : (s.compareChecksum c).err = s.err := rfl
@[simp] theorem State.compareChecksum_estk : (s.compareChecksum c).estk = s.estk := rfl
@[simp] theorem State.compareChecksum_cfg : (s.compareChecksum c).cfg = s.cfg := rfl
@[simp] theorem State.compareChecksum_inReset : (s.compareChecksum c).inReset = s.inReset := rfl
@[simp] theorem State.compareChecksum_pending : (s.compareChecksum c).pending = s.pending := rfl
@[simp] theorem State.compareChecksum_resp : (s.compareChecksum c).resp = s.resp := rfl

end

section
variable (s : State)

@[simp] theorem State.dropPending_acc : s.dropPending.acc = s.acc := rfl
@[simp] theorem State.dropPending_cnt : s.dropPending.cnt = s.cnt := rfl
@[simp] theorem State.dropPending_res : s.dropPending.res = s.res := rfl
@[simp] theorem State.dropPending_arg : s.dropPending.arg = s.arg := rfl
@[simp] theorem State.dropPending_latch : s.dropPending.latch = none := rfl
@[simp] theorem State.dropPending_ckv : s.dropPending.ckv = s.ckv := rfl
@[simp] theorem State.dropPending_ckok : s.dropPending.ckok = s.ckok := rfl
@[simp] theorem State.dropPending_err : s.dropPending.err = s.err := rfl
@[simp] theorem State.dropPending_estk : s.dropPending.estk = s.estk := rfl
@[simp] theorem State.dropPending_cfg : s.dropPending.cfg = s.cfg := rfl
@[simp] theorem State.dropPending_inReset : s.dropPending.inReset = s.inReset := rfl
@[simp] theorem State.dropPending_pending : s.dropPending.pending = s.pending := rfl
@[simp] theorem State.dropPending_resp : s.dropPending.resp = s.resp := rfl

end

section
variable (s : State) (b : Byte)

@[simp] theorem State.holdHigh_acc : (s.holdHigh b).acc = s.acc := rfl
@[simp] theorem State.holdHigh_cnt : (s.holdHigh b).cnt = s.cnt := rfl
@[simp] theorem State.holdHigh_res : (s.holdHigh b).res = s.res := rfl
@[simp] theorem State.holdHigh_arg : (s.holdHigh b).arg = s.arg := rfl
@[simp] theorem State.holdHigh_latch : (s.holdHigh b).latch = some b := rfl
@[simp] theorem State.holdHigh_ckv : (s.holdHigh b).ckv = s.ckv := rfl
@[simp] theorem State.holdHigh_ckok : (s.holdHigh b).ckok = s.ckok := rfl
@[simp] theorem State.holdHigh_err : (s.holdHigh b).err = s.err := rfl
@[simp] theorem State.holdHigh_estk : (s.holdHigh b).estk = s.estk := rfl
@[simp] theorem State.holdHigh_cfg : (s.holdHigh b).cfg = s.cfg := rfl
@[simp] theorem State.holdHigh_inReset : (s.holdHigh b).inReset = s.inReset := rfl
@[simp] theorem State.holdHigh_pending : (s.holdHigh b).pending = s.pending := rfl
@[simp] theorem State.holdHigh_resp : (s.holdHigh b).resp = s.resp := rfl

end

section
variable (s : State) (v : Word)

@[simp] theorem State.setRes_acc : (s.setRes v).acc = s.acc := rfl
@[simp] theorem State.setRes_cnt : (s.setRes v).cnt = s.cnt := rfl
@[simp] theorem State.setRes_res : (s.setRes v).res = v := rfl
@[simp] theorem State.setRes_arg : (s.setRes v).arg = s.arg := rfl
@[simp] theorem State.setRes_latch : (s.setRes v).latch = s.latch := rfl
@[simp] theorem State.setRes_ckv : (s.setRes v).ckv = s.ckv := rfl
@[simp] theorem State.setRes_ckok : (s.setRes v).ckok = s.ckok := rfl
@[simp] theorem State.setRes_err : (s.setRes v).err = s.err := rfl
@[simp] theorem State.setRes_estk : (s.setRes v).estk = s.estk := rfl
@[simp] theorem State.setRes_cfg : (s.setRes v).cfg = s.cfg := rfl
@[simp] theorem State.setRes_inReset : (s.setRes v).inReset = s.inReset := rfl
@[simp] theorem State.setRes_pending : (s.setRes v).pending = s.pending := rfl
@[simp] theorem State.setRes_resp : (s.setRes v).resp = s.resp := rfl

end

section
variable (s : State)

@[simp] theorem State.countSample_acc : s.countSample.acc = s.acc := rfl
@[simp] theorem State.countSample_cnt : s.countSample.cnt = s.cnt + 1 := rfl
@[simp] theorem State.countSample_res : s.countSample.res = s.res := rfl
@[simp] theorem State.countSample_arg : s.countSample.arg = s.arg := rfl
@[simp] theorem State.countSample_latch : s.countSample.latch = s.latch := rfl
@[simp] theorem State.countSample_ckv : s.countSample.ckv = s.ckv := rfl
@[simp] theorem State.countSample_ckok : s.countSample.ckok = s.ckok := rfl
@[simp] theorem State.countSample_err : s.countSample.err = s.err := rfl
@[simp] theorem State.countSample_estk : s.countSample.estk = s.estk := rfl
@[simp] theorem State.countSample_cfg : s.countSample.cfg = s.cfg := rfl
@[simp] theorem State.countSample_inReset : s.countSample.inReset = s.inReset := rfl
@[simp] theorem State.countSample_pending : s.countSample.pending = s.pending := rfl
@[simp] theorem State.countSample_resp : s.countSample.resp = s.resp := rfl

end

section
variable (s : State)

@[simp] theorem State.clearCount_acc : s.clearCount.acc = s.acc := rfl
@[simp] theorem State.clearCount_cnt : s.clearCount.cnt = 0 := rfl
@[simp] theorem State.clearCount_res : s.clearCount.res = s.res := rfl
@[simp] theorem State.clearCount_arg : s.clearCount.arg = s.arg := rfl
@[simp] theorem State.clearCount_latch : s.clearCount.latch = s.latch := rfl
@[simp] theorem State.clearCount_ckv : s.clearCount.ckv = s.ckv := rfl
@[simp] theorem State.clearCount_ckok : s.clearCount.ckok = s.ckok := rfl
@[simp] theorem State.clearCount_err : s.clearCount.err = s.err := rfl
@[simp] theorem State.clearCount_estk : s.clearCount.estk = s.estk := rfl
@[simp] theorem State.clearCount_cfg : s.clearCount.cfg = s.cfg := rfl
@[simp] theorem State.clearCount_inReset : s.clearCount.inReset = s.inReset := rfl
@[simp] theorem State.clearCount_pending : s.clearCount.pending = s.pending := rfl
@[simp] theorem State.clearCount_resp : s.clearCount.resp = s.resp := rfl

end

section
variable (s : State) (rest : List BusEvent)

@[simp] theorem State.take_acc : (s.take rest).acc = s.acc := rfl
@[simp] theorem State.take_cnt : (s.take rest).cnt = s.cnt := rfl
@[simp] theorem State.take_res : (s.take rest).res = s.res := rfl
@[simp] theorem State.take_arg : (s.take rest).arg = s.arg := rfl
@[simp] theorem State.take_latch : (s.take rest).latch = s.latch := rfl
@[simp] theorem State.take_ckv : (s.take rest).ckv = s.ckv := rfl
@[simp] theorem State.take_ckok : (s.take rest).ckok = s.ckok := rfl
@[simp] theorem State.take_err : (s.take rest).err = s.err := rfl
@[simp] theorem State.take_estk : (s.take rest).estk = s.estk := rfl
@[simp] theorem State.take_cfg : (s.take rest).cfg = s.cfg := rfl
@[simp] theorem State.take_inReset : (s.take rest).inReset = s.inReset := rfl
@[simp] theorem State.take_pending : (s.take rest).pending = rest := rfl
@[simp] theorem State.take_resp : (s.take rest).resp = none := rfl

end

section
variable (s : State)

@[simp] theorem State.applyReset_cfg : s.applyReset.cfg = s.cfg := rfl
@[simp] theorem State.applyReset_pending : s.applyReset.pending = s.pending := rfl
@[simp] theorem State.applyReset_inReset : s.applyReset.inReset = false := rfl
@[simp] theorem State.applyReset_resp : s.applyReset.resp = none := rfl
@[simp] theorem State.applyReset_acc : s.applyReset.acc = 0 := rfl
@[simp] theorem State.applyReset_cnt : s.applyReset.cnt = 0 := rfl
@[simp] theorem State.applyReset_res : s.applyReset.res = 0 := rfl
@[simp] theorem State.applyReset_arg : s.applyReset.arg = 0 := rfl
@[simp] theorem State.applyReset_latch : s.applyReset.latch = none := rfl
@[simp] theorem State.applyReset_ckv : s.applyReset.ckv = false := rfl
@[simp] theorem State.applyReset_ckok : s.applyReset.ckok = false := rfl
@[simp] theorem State.applyReset_err : s.applyReset.err = 0 := rfl
@[simp] theorem State.applyReset_estk : s.applyReset.estk = false := rfl

end

end Sys2Proof.Machine
end

