-- ==== Sys2Proof/Laws/Ops.lean ====
section
/-! SUPPORT. What each shared operation of the machine can do, said once: the pairing of a payload byte, an access, an
event, a step. -/

namespace Sys2Proof.Machine

open Sys2Proof

/-- What pairing a byte does (42_stream.md R102). -/
theorem pairByte_cases (s : State) (b : Byte) :
    (s.latch = none ∧ s.pairByte b = { s with latch := some b }) ∨
    (∃ hi, s.latch = some hi ∧
      s.pairByte b = { s with res := h2s s.cfg.h2sEdge (hi ++ b), latch := none, cnt := s.cnt + 1 }) := by
  unfold State.pairByte
  split
  · next h => exact .inl ⟨h, rfl⟩
  · next hi h => exact .inr ⟨hi, h, rfl⟩

@[simp] theorem pairByte_acc (s : State) (b : Byte) : (s.pairByte b).acc = s.acc := by
  unfold State.pairByte; split <;> rfl

@[simp] theorem pairByte_arg (s : State) (b : Byte) : (s.pairByte b).arg = s.arg := by
  unfold State.pairByte; split <;> rfl

@[simp] theorem pairByte_ckv (s : State) (b : Byte) : (s.pairByte b).ckv = s.ckv := by
  unfold State.pairByte; split <;> rfl

@[simp] theorem pairByte_ckok (s : State) (b : Byte) : (s.pairByte b).ckok = s.ckok := by
  unfold State.pairByte; split <;> rfl

@[simp] theorem pairByte_err (s : State) (b : Byte) : (s.pairByte b).err = s.err := by
  unfold State.pairByte; split <;> rfl

@[simp] theorem pairByte_estk (s : State) (b : Byte) : (s.pairByte b).estk = s.estk := by
  unfold State.pairByte; split <;> rfl

@[simp] theorem pairByte_cfg (s : State) (b : Byte) : (s.pairByte b).cfg = s.cfg := by
  unfold State.pairByte; split <;> rfl

@[simp] theorem pairByte_inReset (s : State) (b : Byte) : (s.pairByte b).inReset = s.inReset := by
  unfold State.pairByte; split <;> rfl

@[simp] theorem pairByte_pending (s : State) (b : Byte) : (s.pairByte b).pending = s.pending := by
  unfold State.pairByte; split <;> rfl

@[simp] theorem pairByte_resp (s : State) (b : Byte) : (s.pairByte b).resp = s.resp := by
  unfold State.pairByte; split <;> rfl

/-- The two ways an access in the window can go without a step, and the two ways it can go on
(20_memory.md R41 to R43, 70_reset_and_hazards.md R140). -/
theorem access_cases (w : Width) (a : Nat) (s : State) (act : Reg → Host.Outcome State Fault Refusal) :
    (windowOffset s.cfg a = none ∧ access w a s act = .next s) ∨
    (∃ off, windowOffset s.cfg a = some off ∧ s.inReset = true ∧ access w a s act = .fault .accessInReset) ∨
    (∃ off, windowOffset s.cfg a = some off ∧ s.inReset = false ∧ admittedReg w off = none ∧
      access w a s act = .fault .busError) ∨
    (∃ off r, windowOffset s.cfg a = some off ∧ s.inReset = false ∧ admittedReg w off = some r ∧
      access w a s act = act r) := by
  unfold access
  split
  · next h => exact .inl ⟨h, rfl⟩
  · next off h =>
    cases hr : s.inReset
    · cases ha : admittedReg w off
      · exact .inr (.inr (.inl ⟨off, h, rfl, ha, by simp⟩))
      · next r => exact .inr (.inr (.inr ⟨off, r, h, rfl, ha, by simp⟩))
    · exact .inr (.inl ⟨off, h, rfl, by simp⟩)

/-- The address of each register decodes to it (10_state.md R30, 20_memory.md R41). -/
theorem windowOffset_regAddr (c : Config) (r : Reg) :
    windowOffset c (regAddr c r) = some (BitVec.ofNat 5 r.offset) := by
  have h : r.offset ≤ 0x1F := by cases r <;> decide
  unfold windowOffset regAddr
  rw [if_pos ⟨by omega, by omega⟩, Nat.add_sub_cancel_left]

theorem admittedReg_offset (r : Reg) : admittedReg .w32 (BitVec.ofNat 5 r.offset) = some r := by
  cases r <;> rfl

/-- A 32-bit access at a register's address, when reset is not asserted, acts on that register. -/
theorem access_reg (r : Reg) (s : State) (act : Reg → Host.Outcome State Fault Refusal)
    (h : s.inReset = false) : access .w32 (regAddr s.cfg r) s act = act r := by
  simp [access, windowOffset_regAddr, h, admittedReg_offset]

@[simp] theorem step_nil (s : State) (h : s.pending = []) : step s = .next s := by
  simp [step, h]

theorem step_cons (s : State) (ev : BusEvent) (rest : List BusEvent) (h : s.pending = ev :: rest) :
    step s = serve ev (s.take rest) := by
  simp [step, h]

/-- A command word at the head of the queue is executed (20_memory.md R45). -/
theorem step_cmdWordWrite (s : State) (v : Word) (rest : List BusEvent)
    (hq : s.pending = cmdWordWrite s.cfg v :: rest) (hr : s.inReset = false) :
    step s = execute v (s.take rest) := by
  rw [step_cons s _ rest hq]
  exact access_reg .cmd (s.take rest) (writeReg v (s.take rest)) hr

@[simp] theorem run_zero (s : State) : run 0 s = .next s := rfl

/-- A run whose first step answers a next state goes on from it. -/
theorem run_next (n : Nat) (s t : State) (h : step s = .next t) : run (n + 1) s = run n t := by
  rw [run, h]

/-- Two runs in a row are one run. -/
theorem run_add (m n : Nat) (s t : State) (h : run m s = .next t) : run (m + n) s = run n t := by
  induction m generalizing s with
  | zero =>
    cases h
    rw [Nat.zero_add]
  | succ m ih =>
    rw [run] at h
    rw [Nat.succ_add, run]
    split at h
    · exact ih _ h
    · cases h
    · cases h

/-- A run is the host's own run of the machine (Host.Core.run). -/
theorem run_eq_core_run (n : Nat) (s : State) : run n s = Sys2Proof.core.run n s := by
  induction n generalizing s with
  | zero => rfl
  | succ n ih =>
    have hrun := Host.Core.run.eq_2 Sys2Proof.core s n
    cases h : step s with
    | next t =>
      have h' : Sys2Proof.core.step s = .next t := h
      rw [run, h]
      exact (ih t).trans (hrun.trans (by rw [h'])).symm
    | fault r =>
      have h' : Sys2Proof.core.step s = .fault r := h
      rw [run, h]
      exact (hrun.trans (by rw [h']; rfl)).symm
    | refused r =>
      have h' : Sys2Proof.core.step s = .refused r := h
      rw [run, h]
      exact (hrun.trans (by rw [h']; rfl)).symm

/-! ### Immediates (30_encoding.md R67) -/

@[simp] theorem immediate_eq_none (w n : Nat) : immediate w n = none ↔ 2 ^ w ≤ n := by
  simp [immediate]

theorem immediate_of_lt (w n : Nat) (h : n < 2 ^ w) : immediate w n = some (BitVec.ofNat w n) := by
  simp [immediate, h]

end Sys2Proof.Machine
end

