-- ==== Sys2Proof/Laws/PerInstr.lean ====
section
/-! SUPPORT. For each command: its word matches its own row of the opcode map and its `OP` field is the row's
(30_encoding.md R62, R67). -/

namespace Sys2Proof.Laws.TableRow

open Sys2Proof

/-- The encoded command has the `OP` value and the fixed bits of its row. -/
def Statement (i : Instr) : Prop :=
  opField (encode i) = opNumber i.opcode ∧ i.opcode.encodedBy (encode i) = true

/-- An operand below the mask's zero bits does not disturb the match. -/
theorem encodedBy_of_masked (op : Opcode) (x : Word) (hm : op.matchBits &&& op.mask = op.matchBits)
    (hx : x &&& op.mask = 0) : op.encodedBy (op.matchBits ||| x) = true := by
  have h : (op.matchBits ||| x) &&& op.mask = op.matchBits := by
    ext k hk
    have h1 := congrArg (fun b : Word => b.getLsbD k) hm
    have h2 := congrArg (fun b : Word => b.getLsbD k) hx
    simp [BitVec.getLsbD_eq_getElem hk] at h1 h2 ⊢
    grind
  simp [Opcode.encodedBy, h]

theorem zeroExtend_byte_masked (b : Byte) : (b.zeroExtend 32) &&& (0xFFFFFF00 : Word) = 0 := by
  revert b; decide

theorem zeroExtend_half_masked (h : Half) : (h.zeroExtend 32) &&& (0xFFFF0000 : Word) = 0 := by
  apply BitVec.eq_of_toNat_eq
  have h1 : (h.zeroExtend 32) &&& (0xFFFF0000 : Word) = (h ++ (0 : BitVec 16)).zeroExtend 32 &&& 0 := by
    ext k hk
    simp
    intro hlt
    have : k < 16 := by
      apply Decidable.byContradiction
      intro hge
      simp [BitVec.getLsbD_of_ge h k (by omega)] at hlt
    have hk' : ∀ j : Fin 16, (0xFFFF0000 : Word).getLsbD j.val = false := by decide
    have := hk' ⟨k, this⟩
    simpa [BitVec.getLsbD_eq_getElem hk] using this
  simpa using congrArg BitVec.toNat h1

theorem cvtH2s (h : Half) : Statement (.cvtH2s h) :=
  ⟨opField_encode _, encodedBy_of_masked .cvtH2s _ rfl (zeroExtend_half_masked h)⟩
theorem cvtS2h : Statement .cvtS2h := ⟨opField_encode _, rfl⟩
theorem ckClr : Statement .ckClr := ⟨opField_encode _, rfl⟩
theorem ckAcc (b : Byte) : Statement (.ckAcc b) :=
  ⟨opField_encode _, encodedBy_of_masked .ckAcc _ rfl (zeroExtend_byte_masked b)⟩
theorem ckCmp (c : Byte) : Statement (.ckCmp c) :=
  ⟨opField_encode _, encodedBy_of_masked .ckCmp _ rfl (zeroExtend_byte_masked c)⟩
theorem plStart : Statement .plStart := ⟨opField_encode _, rfl⟩
theorem plByte (b : Byte) : Statement (.plByte b) :=
  ⟨opField_encode _, encodedBy_of_masked .plByte _ rfl (zeroExtend_byte_masked b)⟩
theorem plEnd (c : Byte) : Statement (.plEnd c) :=
  ⟨opField_encode _, encodedBy_of_masked .plEnd _ rfl (zeroExtend_byte_masked c)⟩
theorem stClr : Statement .stClr := ⟨opField_encode _, rfl⟩

end Sys2Proof.Laws.TableRow
end

