-- ==== Sys2Proof/Tests/Slice0.lean ====
section
/-! SUPPORT. Tests of the model. Expected results are the spec's own examples and the vectors of 95_test_vectors.md
(named in each comment). The theorems named witness_<Statement> show that the hypotheses of a statement can be met, for
each of its clauses at a boundary value. -/

namespace Sys2Proof.Tests

open Sys2Proof Sys2Proof.Machine

/-! ### Helpers -/

/-- The next state of an outcome. -/
def nextOf : Host.Outcome State Fault Refusal → Option State
  | .next s    => some s
  | .fault _   => none
  | .refused _ => none

/-- The fault of an outcome. -/
def faultOf : Host.Outcome State Fault Refusal → Option Fault
  | .next _    => none
  | .fault r   => some r
  | .refused _ => none

/-- The parameters of a block that has `CVT.S2H`, in a window at 0x40. -/
def demoCfg : Config := { Config.default with base := 0x40, hasS2h := true }

/-- A block right after reset, with given events on their way. -/
def demo (evs : List BusEvent) : State := { State.reset with cfg := demoCfg, pending := evs }

/-- A block in which every element holds something (vector X1). -/
def busy : State :=
  { demo [] with acc := 0xF8, cnt := 2, res := 0xBF800000, arg := 0x11223344, latch := some 0x3C, ckv := true,
                 ckok := true, err := 3, estk := true }

/-- `ACC CNT RES ARG STATUS` of an outcome, as 95_test_vectors.md writes a state. -/
def view (o : Host.Outcome State Fault Refusal) : Option (Byte × BitVec 16 × Word × Word × Word) :=
  (nextOf o).map fun s => (s.acc, s.cnt, s.res, s.arg, s.status)

/-! ### WellFormed: each check refuses an ill-formed term -/

theorem test_wf_refuses_absent_s2h : Instr.wf false .cvtS2h = false := by decide
theorem test_wf_accepts_present_s2h : Instr.wf true .cvtS2h = true := by decide
theorem test_config_wf_refuses_misaligned_base : ({ Config.default with base := 0x41 } : Config).wf = false := by decide
theorem test_config_wf_accepts_default : Config.default.wf = true := by decide
theorem test_platform_wf_refuses_no_instance : (PlatformConfig.mk []).wf = false := by decide
theorem test_platform_wf_refuses_bad_instance :
    (PlatformConfig.mk [{ Config.default with base := 8 }]).wf = false := by decide
theorem test_platform_wf_accepts_default : PlatformConfig.default.wf = true := by decide

/-! ### Decode: a word of every row, written out from 30_encoding.md R62 -/

theorem test_decode_cvtH2s : decode false 0b00010000000000000011110000000000 = .ok (.cvtH2s 0x3C00) := rfl
theorem test_decode_cvtS2h : decode true 0b00100000000000000000000000000000 = .ok .cvtS2h := rfl
theorem test_decode_ckClr : decode false 0b00110000000000000000000000000000 = .ok .ckClr := rfl
theorem test_decode_ckAcc : decode false 0b01000000000000000000000010000001 = .ok (.ckAcc 0x81) := rfl
theorem test_decode_ckCmp : decode false 0b01010000000000000000000000111101 = .ok (.ckCmp 0x3D) := rfl
theorem test_decode_plStart : decode false 0b01100000000000000000000000000000 = .ok .plStart := rfl
theorem test_decode_plByte : decode false 0b01110000000000000000000000111100 = .ok (.plByte 0x3C) := rfl
theorem test_decode_plEnd : decode false 0b10000000000000000000000011111111 = .ok (.plEnd 0xFF) := rfl
theorem test_decode_stClr : decode false 0b10010000000000000000000000000000 = .ok .stClr := rfl
/-- Vectors E3, E5, E7, E9 and E14. -/
theorem test_decode_errors :
    decode false 0xF0000000 = .error .illop ∧ decode false 0x20000000 = .error .illop ∧
    decode true 0x20000001 = .error .rsvbits ∧ decode false 0x1FFFFFFF = .error .rsvbits ∧
    decode false 0x90000001 = .error .rsvbits := ⟨rfl, rfl, rfl, rfl, rfl⟩
/-- 30_encoding.md R67's example. -/
theorem test_encode_plByte : encode (.plByte 0x3C) = 0x7000003C := by decide
theorem test_table_word : decodeTableWord 32 0x20000000 = some .cvtS2h := by decide
theorem test_table_word_reserved : decodeTableWord 32 0x70000100 = none := by decide
theorem test_first_command_after_reset :
    view (step (State.reset.withFetchWord 32 0x4000003C)) = some (0x3C, 0, 0, 0, 0) := by decide
theorem test_first_command_after_reset_s2h :
    view (step (State.reset.withFetchWord 32 0x20000000)) = some (0, 0, 0, 0, 0) := by decide

/-! ### Widening (vectors of 95_test_vectors.md 2.2) -/

/-- Normal patterns and the special patterns: V5, V10, V11, V15, V17. -/
theorem test_h2s_normal_and_special :
    h2s .literal 0x3555 = 0x3EAAA000 ∧ h2s .ieee 0xFBFF = 0xC77FE000 ∧ h2s .literal 0x0400 = 0x38800000 ∧
    h2s .literal 0x8000 = 0x80000000 ∧ h2s .ieee 0xFC00 = 0xFF800000 := by decide
/-- Subnormals and NaNs under both settings: V18, V21, V22, V23, V27. -/
theorem test_h2s_edge_classes :
    h2s .literal 0x0001 = 0x38002000 ∧ h2s .ieee 0x0001 = 0x33800000 ∧
    h2s .literal 0x03FF = 0x387FE000 ∧ h2s .ieee 0x03FF = 0x387FC000 ∧
    h2s .literal 0x003C = 0x38078000 ∧ h2s .ieee 0x003C = 0x36700000 ∧
    h2s .literal 0x7C01 = 0x47802000 ∧ h2s .ieee 0x7C01 = 0x7F802000 ∧
    h2s .literal 0xFFFF = 0xC7FFE000 ∧ h2s .ieee 0xFFFF = 0xFFFFE000 := by decide

/-! ### Narrowing (vectors of 95_test_vectors.md 2.3) -/

/-- N7, N10, N12, N13, N17. -/
theorem test_s2h_rebias_and_clamp :
    s2h Config.default 0x3DCCCCCD = .ok 0x2E66 ∧ s2h Config.default 0x3F801FFF = .ok 0x3C00 ∧
    s2h Config.default 0x477FE000 = .ok 0x7BFF ∧ s2h Config.default 0x477FE001 = .ok 0x7BFF ∧
    s2h Config.default 0xC7C35000 = .ok 0xFBFF := ⟨rfl, rfl, rfl, rfl, rfl⟩
/-- N2, N19, N21, N23, N24, N25, N27, N29, N31, N35, N37. -/
theorem test_s2h_corners :
    s2h Config.default 0x80000000 = .ok 0x8000 ∧ s2h Config.default 0xFF800000 = .ok 0xFBFF ∧
    s2h Config.default 0x387FFFFF = .ok 0x03FF ∧ s2h Config.default 0x37800000 = .ok 0x7C00 ∧
    s2h Config.default 0x358637BD = .ok 0x6C31 ∧ s2h Config.default 0x33800000 = .ok 0x5C00 ∧
    s2h Config.default 0xB37FFAE5 = .ok 0x8001 ∧ s2h Config.default 0x00000001 = .ok 0x0001 ∧
    s2h Config.default 0x7F800001 = .error .nan ∧
    s2h { Config.default with s2hZero := .flush } 0x80000000 = .ok 0x8001 ∧
    s2h { Config.default with s2hInf := .inf } 0xFF800000 = .ok 0xFC00 :=
  ⟨rfl, rfl, rfl, rfl, rfl, rfl, rfl, rfl, rfl, rfl, rfl⟩

/-! ### One step of each command, from the busy state (all its fields in view) -/

/-- R80's example; only `RES` and `ERR` change. -/
theorem test_cvtH2s : view (exec (.cvtH2s 0x3C00) busy) =
    some (0xF8, 2, 0x3F800000, 0x11223344, 0x00000107) := by decide
/-- N5, and R83: on a NaN only the error fields change (E6, N30). -/
theorem test_cvtS2h : view (exec .cvtS2h { busy with arg := 0x3FC00000 }) =
    some (0xF8, 2, 0x00003E00, 0x3FC00000, 0x00000107) := by decide
theorem test_cvtS2h_nan : view (exec .cvtS2h { demo [] with arg := 0x7FC00000, res := 0x3F800000 }) =
    some (0, 0, 0x3F800000, 0x7FC00000, 0x00000130) := by decide
/-- K8, and R90: the latch and the count stay. -/
theorem test_ckClr : view (exec .ckClr busy) = some (0, 2, 0xBF800000, 0x11223344, 0x00000104) := by decide
/-- K2, and R91: the verdict stays (K9). -/
theorem test_ckAcc_wraps : view (exec (.ckAcc 0x02) { busy with acc := 0xFF }) =
    some (0x01, 2, 0xBF800000, 0x11223344, 0x00000107) := by decide
/-- K5 and K6. -/
theorem test_ckCmp : view (exec (.ckCmp 0xF8) busy) = some (0xF8, 2, 0xBF800000, 0x11223344, 0x00000107) := by decide
theorem test_ckCmp_mismatch : view (exec (.ckCmp 0xF9) busy) =
    some (0xF8, 2, 0xBF800000, 0x11223344, 0x00000105) := by decide
/-- R101 and T7. -/
theorem test_plStart : view (exec .plStart busy) = some (0, 0, 0xBF800000, 0x11223344, 0x00000100) := by decide
/-- T13: the second byte widens big-endian and the count wraps; and a first byte is held (P1 line 2). -/
theorem test_plByte_second : view (exec (.plByte 0x00) { busy with cnt := 0xFFFF }) =
    some (0xF8, 0, 0x3F800000, 0x11223344, 0x00000103) := by decide
theorem test_plByte_first : (nextOf (exec (.plByte 0x3C) (demo []))).map (fun s => (s.acc, s.latch, s.cnt)) =
    some (0x3C, some 0x3C, 0) := by decide
/-- T3 and R103: a pending byte is dropped, and the verdict is that of the sum with it. -/
theorem test_plEnd : view (exec (.plEnd 0xF8) busy) = some (0xF8, 2, 0xBF800000, 0x11223344, 0x00000103) := by decide
theorem test_plEnd_mismatch : view (exec (.plEnd 0x3D) busy) =
    some (0xF8, 2, 0xBF800000, 0x11223344, 0x00000101) := by decide
/-- Q4 and Q5: the verdict and the pending byte stay. -/
theorem test_stClr : view (exec .stClr busy) = some (0xF8, 2, 0xBF800000, 0x11223344, 0x00000007) := by decide

/-! ### The window and reset (95_test_vectors.md 2.7 and 2.8) -/

/-- A1, A4, A5: reads. -/
theorem test_reads :
    readReg busy .cmd = 0 ∧ readReg busy .acc = 0xF8 ∧ readReg busy .cnt = 2 ∧ readReg busy .status = 0x00000137 := by
  decide
/-- A8: a write to `STATUS` is ignored. -/
theorem test_status_write_ignored :
    view (step { busy with pending := [.write .w32 0x4C 0xFFFFFFFF] }) =
      some (0xF8, 2, 0xBF800000, 0x11223344, 0x00000137) := by decide
/-- A12, A13, A14: bus errors. -/
theorem test_bus_errors :
    faultOf (step (demo [.read .w8 0x48])) = some .busError ∧
    faultOf (step (demo [.read .w32 0x42])) = some .busError ∧
    faultOf (step (demo [.write .w16 0x40 0])) = some .busError := by decide
/-- R140: an access while reset is asserted. -/
theorem test_access_in_reset :
    faultOf (step { demo [.read .w32 0x48] with inReset := true }) = some .accessInReset := by decide
/-- X1: reset. -/
theorem test_reset : view (step { busy with inReset := true, pending := [.resetLine false] }) =
    some (0, 0, 0, 0, 0) := by decide
/-- R47: little-endian lanes. -/
theorem test_byte_lanes : byteLane 0x11223344 0 = 0x44 ∧ byteLane 0x11223344 3 = 0x11 := by decide

/-! ### The host's side -/

/-- The buffer of W1. -/
def w1 : List Byte :=
  [0xAA, 0xB1, 0x00, 0x01, 0x07, 0xE7, 0x06, 0x0F, 0x0C, 0x1E, 0x00, 0x00, 0x02, 0x3C, 0x00, 0x3C]

theorem test_w1_header : frameHeader w1 =
    { functionCode := 0xB1, gateway := 1, year := 2023, month := 6, day := 15, hour := 12, minute := 30, second := 0,
      payloadLength := 2 } := by decide
theorem test_w1_payload :
    structuralCheck (some w1) = none ∧ framePayload w1 = [0x3C, 0x00] ∧ frameTrailer w1 = 0x3C := by decide
theorem test_structural_checks :
    structuralCheck none = some .nullBuffer ∧ structuralCheck (some [0xB1]) = some .emptyBuffer ∧
    structuralCheck (some [0x00, 0xB5]) = some .unknownFunction ∧
    structuralCheck (some [0x00, 0xB4]) = some .headerShort ∧
    structuralCheck (some (w1.take 15)) = some .payloadExceeds := by decide
theorem test_checksum : checksum [0xC0, 0x00, 0x7F] = 0x3F ∧ checksum [] = 0 := by decide
theorem test_assembler :
    assembleLine demoCfg (.ckAcc 256) = none ∧
    assembleLine demoCfg (.ckAcc 0x3C) = some (.write .w32 0x40 0x4000003C) ∧
    assembleLine demoCfg (.rd .res) = some (.read .w32 0x48) ∧
    expand (.cvtH2sBe 0x3C 0x01) = some [.cvtH2s 0x3C01] ∧ expand (.cvtH2sBe 0x100 0) = none := by decide
theorem test_outcome_codes : ParseOutcome.code .checksumMismatch = 0x50 ∧
    outcomeOfStatus 0x00000001 = some .checksumMismatch ∧ outcomeOfStatus 0x00000003 = some .success ∧
    outcomeOfStatus 0x00000000 = none := by decide
theorem test_mnemonics : opcodes.map Opcode.mnemonic =
    ["CVT.H2S", "CVT.S2H", "CK.CLR", "CK.ACC", "CK.CMP", "PL.START", "PL.BYTE", "PL.END", "ST.CLR"] := by decide
theorem test_platform_reset : (Platform.reset .default).blocks = [State.reset] := by decide

/-! ### Witnesses for the statements' hypotheses -/

theorem witness_EncodeThenDecode :
    Instr.wf true .cvtS2h = true ∧ Instr.wf false (.plByte 0xFF) = true := by decide
theorem witness_DecodeThenEncode :
    decode false 0x1000FFFF = .ok (.cvtH2s 0xFFFF) ∧ decode true 0x20000000 = .ok .cvtS2h := ⟨rfl, rfl⟩
theorem witness_WordEncodesItsTableRow :
    (0x800000FF : Word) &&& Opcode.mask .plEnd = Opcode.matchBits .plEnd ∧
    (0x20000000 : Word) &&& Opcode.mask .cvtS2h = Opcode.matchBits .cvtS2h := by decide
theorem witness_IllegalOpcodesRaiseIllop :
    decode false 0x00000000 = .error .illop ∧ decode true 0xA0000000 = .error .illop ∧
    decode true 0xFFFFFFFF = .error .illop ∧ decode false 0x20000000 = .error .illop := ⟨rfl, rfl, rfl, rfl⟩
theorem witness_ReservedBitsRaiseRsvbits :
    decode false 0x10010000 = .error .rsvbits ∧ decode false 0x98000000 = .error .rsvbits ∧
    decode false 0x40000100 = .error .rsvbits ∧ decode true 0x20000001 = .error .rsvbits ∧
    decode false 0x90008000 = .error .rsvbits := ⟨rfl, rfl, rfl, rfl, rfl⟩
theorem witness_StepRunsDecodedCommand :
    (demo [.write .w32 0x40 0x90000000]).inReset = false ∧
    (demo [.write .w32 0x40 0x90000000]).pending = [.write .w32 demoCfg.base 0x90000000] ∧
    decode demoCfg.hasS2h 0x90000000 = .ok .stClr := ⟨rfl, rfl, rfl⟩
theorem witness_StepReportsDecodingError :
    (demo [.write .w32 0x40 0]).inReset = false ∧ (demo [.write .w32 0x40 0]).pending = [.write .w32 demoCfg.base 0] ∧
    decode demoCfg.hasS2h 0 = .error .illop ∧ decode demoCfg.hasS2h 0x70000100 = .error .rsvbits := ⟨rfl, rfl, rfl, rfl⟩
theorem witness_IdleBlockHoldsState : State.reset.pending = [] := rfl
/-- A byte read and a 64-bit read that start just below the window, and a write just above it. -/
theorem witness_AccessOutsideWindowChangesNothing :
    (demo [.read .w64 0x3F]).pending = [.read .w64 0x3F] ∧
    (0x3F < demoCfg.base) ∧ (demoCfg.base + 0x1F < 0x60) ∧
    (demo [.read .w8 0x3F]).pending = [.read .w8 0x3F] ∧ (demo [.write .w32 0x60 1]).pending = [.write .w32 0x60 1] := by
  decide
/-- The first and last word of the window, a wrong width at the first byte, a misaligned access at the last byte. -/
theorem witness_OnlyAlignedWordAccessHasStep :
    (demo [.read .w32 0x5C]).inReset = false ∧ (demo [.read .w32 0x5C]).pending = [.read .w32 0x5C] ∧
    (demo [.write .w8 0x40 1]).pending = [.write .w8 0x40 1] ∧ demoCfg.base ≤ 0x40 ∧ 0x5F ≤ demoCfg.base + 0x1F ∧
    (0x40 - demoCfg.base) % 4 = 0 ∧ (0x5C - demoCfg.base) % 4 = 0 ∧ (0x5F - demoCfg.base) % 4 ≠ 0 ∧
    Width.w8 ≠ Width.w32 := by decide
theorem witness_ReadReturnsRegister :
    busy.inReset = false ∧
    (demo [.read .w32 0x40]).pending = [.read .w32 (demoCfg.base + 0x00)] ∧
    (demo [.read .w32 0x5C, .read .w32 0x5C]).pending =
      [.read .w32 (demoCfg.base + 0x1C), .read .w32 (demoCfg.base + 0x1C)] := by decide
theorem witness_WriteReachesRegister :
    (demo [.write .w32 0x40 0x400000FF, .write .w32 0x40 0x400000FF]).pending =
      [.write .w32 demoCfg.base (0x40000000 ||| (0xFF : Byte).zeroExtend 32),
       .write .w32 demoCfg.base (0x40000000 ||| (0xFF : Byte).zeroExtend 32)] ∧
    (demo [.write .w32 0x44 7, .write .w32 0x44 7]).pending =
      [.write .w32 (demoCfg.base + 4) 7, .write .w32 (demoCfg.base + 4) 7] ∧
    (demo [.write .w32 0x5C 7]).pending = [.write .w32 (demoCfg.base + 0x1C) 7] ∧ (demo []).inReset = false := by decide
theorem witness_ReadAfterCommandSeesItsEffect :
    (demo [.write .w32 0x40 0xFFFFFFFF, .read .w32 0x4C]).pending =
      [cmdWordWrite demoCfg 0xFFFFFFFF, regRead demoCfg .status] ∧ (demo []).inReset = false := by decide
theorem witness_OperandWrittenFirstIsConverted :
    (demo []).inReset = false ∧ demoCfg.hasS2h = true ∧ s2h demoCfg 0x3F800000 = .ok 0x3C00 ∧
    (demo [.write .w32 0x44 0x3F800000, .write .w32 0x40 0x20000000]).pending =
      [argWrite demoCfg 0x3F800000, cmdWrite demoCfg .cvtS2h] := ⟨rfl, rfl, rfl, by decide⟩
theorem witness_ResetLineResetsBlock :
    (demo [.resetLine true]).pending = [.resetLine true] ∧
    ({ busy with inReset := true, pending := [.resetLine false] } : State).inReset = true ∧
    ({ busy with inReset := true, pending := [.read .w8 0x5F] } : State).pending = [.read .w8 0x5F] ∧
    demoCfg.base ≤ 0x5F ∧ 0x5F ≤ demoCfg.base + 0x1F := by decide
theorem witness_CvtH2sWidensImmediate : opField 0x10010000 = 1 ∧ rsvField 0x10010000 ≠ 0 := by decide
theorem witness_WideningFunction :
    (0x0001 : Half) ∉ [(0x0000 : Half), 0x8000, 0x7C00, 0xFC00] ∧
    (0xFFFF : Half) ∉ [(0x0000 : Half), 0x8000, 0x7C00, 0xFC00] ∧
    (0x0400 : Half) ∉ [(0x0000 : Half), 0x8000, 0x7C00, 0xFC00] := by decide
theorem no_bit_above_nine (h : Half) (j : Nat) (hj : 9 < j) : (halfFrac h).getLsbD j = false :=
  BitVec.getLsbD_of_ge _ _ hj
/-- A subnormal whose highest 1 bit is bit 9, and the smallest and the largest NaN fraction. -/
theorem witness_IeeeWideningOfSubnormalsAndNans :
    (halfExp 0x0200 = 0 ∧ (halfFrac 0x0200).getLsbD 9 = true ∧ ∀ j, 9 < j → (halfFrac 0x0200).getLsbD j = false) ∧
    (halfExp 0x7C01 = 31 ∧ halfFrac 0x7C01 ≠ 0) ∧ (halfExp 0xFFFF = 31 ∧ halfFrac 0xFFFF ≠ 0) :=
  ⟨⟨by decide, by decide, no_bit_above_nine _⟩, by decide, by decide⟩
theorem witness_IeeeWideningKeepsEveryFiniteValue : halfExp 0x0001 ≠ 31 ∧ halfExp 0x7BFF ≠ 31 := by decide
theorem witness_NormalWideningIsExact : halfIsNormal 0x0400 = true ∧ halfIsNormal 0xFBFF = true := by decide
theorem witness_LiteralWideningOfEdgeClasses :
    (halfExp 0x0001 = 0 ∧ halfFrac 0x0001 ≠ 0) ∧ (halfExp 0x7FFF = 31 ∧ halfFrac 0x7FFF ≠ 0) := by decide
theorem witness_ConversionsKeepSign :
    s2h Config.default 0x80000000 = .ok 0x8000 ∧ s2h Config.default 0xFF800000 = .ok 0xFBFF := ⟨rfl, rfl⟩
/-- A block without `CVT.S2H`; and on one with it, a malformed word, a NaN, the largest finite operand, R83's
example. -/
theorem witness_CvtS2hNarrowsArg :
    State.reset.cfg.hasS2h = false ∧ demoCfg.hasS2h = true ∧
    (opField 0x20000001 = 2 ∧ (0x20000001 : Word) ≠ 0x20000000) ∧
    (wordExp 0x7F800001 = 0xFF ∧ wordFrac 0x7F800001 ≠ 0) ∧
    (wordExp 0x7F7FFFFF ≠ 0xFF ∨ wordFrac 0x7F7FFFFF = 0) ∧ (wordExp 0xFF800000 ≠ 0xFF ∨ wordFrac 0xFF800000 = 0) ∧
    demoCfg.s2hTiny = 0x33800000 := by decide
/-- Each clause at a boundary: infinity, just above 65504.0, zero, just below and at `S2H_TINY`, at 65504.0, and the
largest binary32 subnormal. -/
theorem witness_NarrowingFunction :
    (wordExp 0x7F800000 = 0xFF ∧ wordFrac 0x7F800000 = 0) ∧
    (wordExp 0x477FE001 ≠ 0xFF ∧ 0x477FE000 < wordMag 0x477FE001) ∧
    wordMag 0x80000000 = 0 ∧
    (wordMag 0x337FFFFF ≤ 0x477FE000 ∧ wordMag 0x337FFFFF ≠ 0 ∧ wordMag 0x337FFFFF < Config.default.s2hTiny) ∧
    (wordMag 0x33800000 ≤ 0x477FE000 ∧ wordMag 0x33800000 ≠ 0 ∧ Config.default.s2hTiny ≤ wordMag 0x33800000) ∧
    (wordMag 0x477FE000 ≤ 0x477FE000 ∧ Config.default.s2hTiny ≤ wordMag 0x477FE000) ∧
    (wordExp 0x007FFFFF = 0 ∧ wordFrac 0x007FFFFF ≠ 0 ∧ 0x00800000 < Config.default.s2hTiny) := by decide
theorem witness_NarrowingTruncatesTowardZero :
    (0x38800000 ≤ wordMag 0xB8800000 ∧ wordMag 0xB8800000 ≤ 0x477FE000 ∧ Config.default.s2hTiny ≤ wordMag 0xB8800000) ∧
    (0x38800000 ≤ wordMag 0x477FE000 ∧ wordMag 0x477FE000 ≤ 0x477FE000) := by decide
theorem witness_NormalPatternsRoundTrip :
    halfIsNormal 0x0400 = true ∧ halfIsNormal 0x7BFF = true ∧ Config.default.s2hTiny ≤ 0x38800000 := by decide
theorem witness_CkClrClearsAccumulatorAndVerdict :
    opField 0x30000001 = 3 ∧ (0x30000001 : Word) ≠ 0x30000000 := by decide
theorem witness_CkAccAddsByte :
    opField 0x40000100 = 4 ∧ immHi 0x40000100 ≠ 0 ∧ opField 0x40010000 = 4 ∧ rsvField 0x40010000 ≠ 0 ∧
    ({ busy with acc := 0xFF } : State).acc = 0xFF := by decide
theorem witness_CkCmpGivesVerdict :
    opField 0x50008000 = 5 ∧ immHi 0x50008000 ≠ 0 ∧ opField 0x58000000 = 5 ∧ rsvField 0x58000000 ≠ 0 ∧
    ({ busy with acc := 0x3C } : State).acc = 0x3C := by decide
theorem witness_AccumulatorHoldsChecksum :
    (demo []).inReset = false ∧ (demo []).acc = 0 ∧ clearsAcc .ckClr = true ∧ clearsAcc .plStart = true ∧
    (∀ i ∈ [Instr.ckAcc 0xFF, .cvtS2h, .plByte 0x02], clearsAcc i = false) := by decide
theorem witness_AccumulatorHoldsChecksum_queue :
    (demo [.write .w32 0x40 0x30000000, .write .w32 0x40 0x400000FF]).pending =
      [Instr.ckClr, .ckAcc 0xFF].map (cmdWrite demoCfg) := by decide
theorem witness_ChecksumIgnoresOrder : ([0x01, 0xFF] : List Byte).Perm [0xFF, 0x01] := by decide
theorem witness_SingleCorruptionChangesChecksum :
    1 < ([0x3C, 0x00] : List Byte).length ∧ (0xFF : Byte) ≠ ([0x3C, 0x00] : List Byte)[1] := by decide
theorem witness_PlStartStartsFrame : opField 0x60008000 = 6 ∧ (0x60008000 : Word) ≠ 0x60000000 := by decide
theorem witness_PlByteSumsAndPairs :
    (demo []).latch = none ∧ busy.latch = some 0x3C ∧ opField 0x70000100 = 7 ∧ immHi 0x70000100 ≠ 0 ∧
    opField 0x78000000 = 7 ∧ rsvField 0x78000000 ≠ 0 := by decide
theorem witness_PlEndChecksAndDrops :
    opField 0x80000100 = 8 ∧ immHi 0x80000100 ≠ 0 ∧ opField 0x80010000 = 8 ∧ rsvField 0x80010000 ≠ 0 ∧
    ({ busy with acc := 0x3C } : State).acc = 0x3C := by decide
/-- An empty, a one-byte, a two-byte and an odd payload, from a busy block. -/
theorem witness_FrameLaw :
    ({ busy with pending := feedFrame demoCfg [0xC0, 0x00, 0x7F] 0x3F } : State).inReset = false ∧
    ({ busy with pending := feedFrame demoCfg [0xC0, 0x00, 0x7F] 0x3F } : State).pending =
      feedFrame demoCfg [0xC0, 0x00, 0x7F] 0x3F ++ [] ∧
    2 * 0 + 1 < ([0xC0, 0x00] : List Byte).length ∧ 2 ≤ ([0xC0, 0x00] : List Byte).length ∧
    ([0x7F] : List Byte).length < 2 ∧ ([] : List Byte).length < 2 := by decide
theorem witness_StClrClearsErrorReport :
    opField 0x90000001 = 9 ∧ (0x90000001 : Word) ≠ 0x90000000 ∧
    readReg { demo [] with estk := true, err := 1 } .status = 0x00000110 := by decide
theorem witness_ErrorsNeverStopTheBlock :
    busy.inReset = false ∧ ({ busy with pending := [.write .w32 0x40 0] } : State).pending = [cmdWordWrite demoCfg 0] ∧
    commandError demoCfg 0 0 = some .illop ∧ commandError demoCfg 0 0x20000001 = some .rsvbits ∧
    commandError demoCfg 0x7FC00000 0x20000000 = some .nan := by decide
theorem witness_FailedCommandsLeaveNoTrace :
    (demo []).inReset = false ∧ (demo []).estk = false ∧ (0x90000000 : Word) ∉ [(0x40000001 : Word), 0x00000000] ∧
    successful demoCfg 0 [0x40000001, 0x00000000] = [0x40000001] := by decide
theorem witness_CommandsWriteOnlyTheirWriteSet :
    (nextOf (exec (.plByte 0xFF) busy)).isSome = true ∧ (nextOf (exec .cvtS2h busy)).isSome = true := by decide
theorem witness_CommandsReadOnlyTheirReadSet :
    busy.cfg = { busy with res := 0, ckv := false, ckok := false, err := 0, estk := false }.cfg ∧
    (nextOf (exec (.plByte 0xFF) { busy with res := 0 })).isSome = true ∧
    (nextOf (exec .stClr busy)).isSome = true ∧ (nextOf (exec .stClr { busy with estk := false })).isSome = true := by
  decide
theorem witness_OnlyListedWritersChangeAnElement :
    (nextOf (step { busy with pending := [.write .w32 0x40 0x90000000] })).map (·.estk) = some false ∧
    (nextOf (step { busy with pending := [.write .w32 0x44 7] })).map (·.arg) = some 7 ∧
    (nextOf (step (demo [.write .w32 0x40 0x70000001]))).map (·.latch) = some (some 1) ∧
    (nextOf (step { busy with inReset := true, pending := [.resetLine false] })).map (·.acc) = some 0 := by decide
theorem witness_StepKeepsStateLegal :
    busy.Legal ∧ (nextOf (step { busy with pending := [.write .w32 0x40 0] })).isSome = true := by decide
theorem witness_ParametersNeverChange :
    (nextOf (run 2 { busy with pending := [.resetLine true, .resetLine false] })).isSome = true := by decide
/-- A servable sequence through a reset, and one that ends in a misaligned access. -/
theorem witness_ServableSequencesRunToTheirEnd :
    servable demoCfg false [.write .w32 0x5C 0, .resetLine true, .read .w8 0x60, .resetLine false, .read .w32 0x40] =
      true ∧
    servable demoCfg false [.read .w32 0x40, .read .w32 0x5F] = false := by decide
theorem witness_InstancesShareNoState :
    ((Platform.mk [demo [.write .w32 0x40 0x40000001], busy]).blocks[0]?).isSome = true ∧
    (nextOf (step (demo [.write .w32 0x40 0x40000001]))).isSome = true ∧ (1 : Nat) ≠ 0 := by decide
theorem witness_InstancesShareNoState_step :
    ∃ q, (Platform.mk [demo [.write .w32 0x40 0x40000001], busy]).stepAt 0 = .next q := ⟨_, rfl⟩
theorem witness_ImmediatesThatDoNotFitAreErrors :
    (AsmLine.plEnd 0xFF, (0x80000000 : Word)) ∈ [(AsmLine.ckAcc 0xFF, (0x40000000 : Word)), (.ckCmp 0xFF, 0x50000000),
      (.plByte 0xFF, 0x70000000), (.plEnd 0xFF, 0x80000000)] ∧
    (0xFF : Nat) < 0x100 ∧ (0xFFFF : Nat) < 0x10000 := by decide
theorem witness_CheckedFramesHoldTheirPayload :
    structuralCheck (some w1) = none ∧ 1 < (framePayload w1).length := by decide
theorem witness_HostLearnsChecksumOutcome :
    busy.inReset = false ∧ structuralCheck (some w1) = none ∧
    structuralCheck (some (w1.set 12 0x00)) = none := by decide

end Sys2Proof.Tests
end

