-- ==== Sys2Proof/Proofs/Scope.lean ====
section
/-! SUPPORT. The proofs of the statements of 00_scope.md: a command word's step, the parameters along a run, and the
outcome a host learns from a frame. -/

namespace Sys2Proof

/-! ### Decoding an encoded command (30_encoding.md R65, R67) -/

/-- The opcode map reads a command's own `OP` value back, where the command exists. -/
theorem opcodeOf_opNumber {hasS2h : Bool} {i : Instr} (hwf : i.wf hasS2h = true) :
    opcodeOf hasS2h (opNumber i.opcode) = some i.opcode := by
  cases i
  case cvtS2h => rw [show hasS2h = true from hwf]; rfl
  all_goals rfl

/-- An encoded byte operand is the low byte of the word, and the byte above it is 0. -/
theorem immLo_immHi_encode {i : Instr} {b : Byte} (hb : i.immBits = b.zeroExtend 32) :
    immLo (encode i) = b ∧ immHi (encode i) = 0 := by
  have hlow : immLo i.opcode.matchBits = 0 ∧ immHi i.opcode.matchBits = 0 := by
    generalize i.opcode = op
    cases op <;> exact ⟨rfl, rfl⟩
  rw [encode, hb]
  exact byte_fields _ b hlow.1 hlow.2

@[simp] theorem immField_encode_cvtH2s (h : Half) : immField (encode (.cvtH2s h)) = h := by
  rw [immField_encode]
  ext k hk
  simp [Instr.immBits, hk, Nat.lt_trans hk (by decide : 16 < 32)]

/-- The bits that a command's form does not use are 0 in its encoding (30_encoding.md R64). -/
theorem immOk_encode (i : Instr) : i.opcode.form.immOk (encode i) = true := by
  cases i
  case cvtH2s => rfl
  case ckAcc | ckCmp | plByte | plEnd => exact beq_iff_eq.mpr (immLo_immHi_encode rfl).2
  all_goals rfl

/-- The operand is read back from the encoding. -/
theorem instr_encode (i : Instr) : i.opcode.instr (encode i) = i := by
  cases i
  case cvtH2s h => exact congrArg Instr.cvtH2s (immField_encode_cvtH2s h)
  case ckAcc => exact congrArg Instr.ckAcc (immLo_immHi_encode rfl).1
  case ckCmp => exact congrArg Instr.ckCmp (immLo_immHi_encode rfl).1
  case plByte => exact congrArg Instr.plByte (immLo_immHi_encode rfl).1
  case plEnd => exact congrArg Instr.plEnd (immLo_immHi_encode rfl).1
  all_goals rfl

/-- Decoding gives back an encoded command that exists on the block. -/
theorem decode_encode {hasS2h : Bool} {i : Instr} (hwf : i.wf hasS2h = true) :
    decode hasS2h (encode i) = .ok i := by
  simp [decode, opcodeOf_opNumber hwf, immOk_encode, instr_encode]

/-- Without `CVT.S2H` its word is an illegal one (30_encoding.md R63). -/
theorem decode_encode_cvtS2h_absent : decode false (encode .cvtS2h) = .error .illop := rfl

end Sys2Proof

namespace Sys2Proof.Machine

open Sys2Proof

/-! ### What a command leaves of the block's setting -/

/-- Everything of the state that no command changes: the parameters, the reset line, the events on their way and the
word on the bus. -/
structure State.SameSetting (s t : State) : Prop where
  cfg     : t.cfg = s.cfg
  inReset : t.inReset = s.inReset
  pending : t.pending = s.pending
  resp    : t.resp = s.resp

theorem State.SameSetting.complete {s t : State} (h : s.SameSetting t) : s.SameSetting t.complete :=
  ⟨h.cfg, h.inReset, h.pending, h.resp⟩

theorem State.sameSetting_raise (s : State) (e : CmdError) : s.SameSetting (s.raise e) := ⟨rfl, rfl, rfl, rfl⟩

/-- The three ways `CVT.S2H` can go (40_convert.md R83). -/
theorem execCvtS2h_cases (s : State) :
    (s.cfg.hasS2h = false ∧ execCvtS2h s = .next (s.raise .illop)) ∨
    (s.cfg.hasS2h = true ∧ ∃ e, s2h s.cfg s.arg = .error e ∧ execCvtS2h s = .next (s.raise e)) ∨
    (s.cfg.hasS2h = true ∧ ∃ r, s2h s.cfg s.arg = .ok r ∧
      execCvtS2h s = .next (s.setRes (r.zeroExtend 32)).complete) := by
  unfold execCvtS2h State.argOperand
  cases hhas : s.cfg.hasS2h
  · exact .inl ⟨rfl, rfl⟩
  · cases hconv : s2h s.cfg s.arg with
    | error e => exact .inr (.inl ⟨rfl, e, rfl, rfl⟩)
    | ok r => exact .inr (.inr ⟨rfl, r, rfl, rfl⟩)

/-- Every command has a next state, in the same setting. -/
theorem exec_sameSetting (i : Instr) (s : State) : ∃ t, exec i s = .next t ∧ s.SameSetting t := by
  cases i
  case cvtS2h =>
    obtain ⟨-, h⟩ | ⟨-, e, -, h⟩ | ⟨-, r, -, h⟩ := execCvtS2h_cases s
    · exact ⟨_, h, s.sameSetting_raise _⟩
    · exact ⟨_, h, s.sameSetting_raise e⟩
    · exact ⟨_, h, rfl, rfl, rfl, rfl⟩
  case plByte b =>
    have hpair : s.SameSetting ((s.accumulate b).pairByte b) := ⟨by simp, by simp, by simp, by simp⟩
    exact ⟨_, rfl, hpair.complete⟩
  all_goals exact ⟨_, rfl, rfl, rfl, rfl, rfl⟩

/-! ### Command words -/

theorem execute_of_decode_ok {v : Word} {s : State} {i : Instr} (h : decode s.cfg.hasS2h v = .ok i) :
    execute v s = exec i s := by
  simp only [execute, h]

theorem execute_of_decode_error {v : Word} {s : State} {e : CmdError} (h : decode s.cfg.hasS2h v = .error e) :
    execute v s = .next (s.raise e) := by
  simp only [execute, h]

/-- Every command word has a next state, in the same setting (60_exceptions.md R127). -/
theorem execute_sameSetting (v : Word) (s : State) : ∃ t, execute v s = .next t ∧ s.SameSetting t := by
  cases h : decode s.cfg.hasS2h v with
  | ok i => rw [execute_of_decode_ok h]; exact exec_sameSetting i s
  | error e => exact ⟨_, execute_of_decode_error h, s.sameSetting_raise e⟩

/-- A command's word carries the command out, on a block without `CVT.S2H` too: there the decoder and the meaning raise
the same error (log 16). -/
@[simp] theorem execute_encode (i : Instr) (s : State) : execute (encode i) s = exec i s := by
  by_cases hwf : i.wf s.cfg.hasS2h = true
  · exact execute_of_decode_ok (decode_encode hwf)
  · obtain ⟨rfl, hhas⟩ : i = .cvtS2h ∧ s.cfg.hasS2h = false := by
      cases i <;> simp_all [Instr.wf]
    rw [execute_of_decode_error (e := .illop) (by rw [hhas]; exact decode_encode_cvtS2h_absent)]
    simp [exec, execCvtS2h, hhas]

/-- A command at the head of the queue is carried out. -/
theorem step_cmdWrite {s : State} {i : Instr} {rest : List BusEvent}
    (hq : s.pending = cmdWrite s.cfg i :: rest) (hr : s.inReset = false) :
    step s = exec i (s.take rest) := by
  rw [step_cmdWordWrite s (encode i) rest hq hr, execute_encode]

/-- A command at the head of the queue has a next state, which takes the event and keeps the rest of the setting. -/
theorem step_cmdWrite_next {s : State} {i : Instr} {rest : List BusEvent}
    (hq : s.pending = cmdWrite s.cfg i :: rest) (hr : s.inReset = false) :
    ∃ t, step s = .next t ∧ exec i (s.take rest) = .next t ∧ t.pending = rest ∧ t.cfg = s.cfg ∧
      t.inReset = false := by
  obtain ⟨t, ht, hset⟩ := exec_sameSetting i (s.take rest)
  exact ⟨t, (step_cmdWrite hq hr).trans ht, ht, hset.pending, hset.cfg, hset.inReset.trans hr⟩

/-! ### The parameters along a run (00_scope.md R6) -/

/-- An access that has a next state is outside the window, or acts on the register it is admitted at. -/
theorem access_next {w : Width} {a : Nat} {s t : State} {act : Reg → Host.Outcome State Fault Refusal}
    (h : access w a s act = .next t) :
    (windowOffset s.cfg a = none ∧ t = s) ∨
    (∃ off r, windowOffset s.cfg a = some off ∧ s.inReset = false ∧ admittedReg w off = some r ∧
      act r = .next t) := by
  obtain ⟨hout, heq⟩ | ⟨_, _, _, heq⟩ | ⟨_, _, _, _, heq⟩ | ⟨off, r, hoff, hr, hreg, heq⟩ := access_cases w a s act
  · rw [heq] at h; cases h; exact .inl ⟨hout, rfl⟩
  · rw [heq] at h; cases h
  · rw [heq] at h; cases h
  · exact .inr ⟨off, r, hoff, hr, hreg, heq ▸ h⟩

/-- A write to any register has a next state, in the same setting (20_memory.md R45). -/
theorem writeReg_sameSetting (v : Word) (s : State) (r : Reg) :
    ∃ t, writeReg v s r = .next t ∧ s.SameSetting t := by
  cases r
  case cmd => exact execute_sameSetting v s
  all_goals exact ⟨_, rfl, rfl, rfl, rfl, rfl⟩

@[simp] theorem resetLine_cfg (on : Bool) (s : State) : (resetLine on s).cfg = s.cfg := by
  unfold resetLine; split <;> rfl

theorem serve_cfg {ev : BusEvent} {s t : State} (h : serve ev s = .next t) : t.cfg = s.cfg := by
  cases ev with
  | read w a =>
    obtain ⟨-, rfl⟩ | ⟨_, _, _, _, _, hact⟩ := access_next h
    · rfl
    · cases hact; rfl
  | write w a v =>
    obtain ⟨-, rfl⟩ | ⟨_, r, _, _, _, hact⟩ := access_next h
    · rfl
    · obtain ⟨u, hu, hset⟩ := writeReg_sameSetting v s r
      cases hu.symm.trans hact
      exact hset.cfg
  | resetLine on => cases h; exact resetLine_cfg on s

theorem step_cfg {s t : State} (h : step s = .next t) : t.cfg = s.cfg := by
  cases hq : s.pending with
  | nil => rw [step_nil s hq] at h; cases h; rfl
  | cons ev rest => rw [step_cons s ev rest hq] at h; exact serve_cfg (s := s.take rest) h

theorem run_cfg {n : Nat} {s t : State} (h : run n s = .next t) : t.cfg = s.cfg := by
  induction n generalizing s with
  | zero => cases h; rfl
  | succ n ih =>
    cases hs : step s with
    | next u => rw [run_next n s u hs] at h; exact (ih h).trans (step_cfg hs)
    | fault r => simp [run, hs] at h
    | refused r => simp [run, hs] at h

/-! ### The accumulator along a command sequence (41_checksum.md R93, R94) -/

@[simp] theorem checksum_nil : checksum [] = 0 := rfl

@[simp] theorem checksum_cons (b : Byte) (p : List Byte) : checksum (b :: p) = b + checksum p := by
  apply BitVec.eq_of_toNat_eq
  simp [checksum, BitVec.toNat_add]

/-- A command that does not clear `ACC` keeps the sum of `ACC` and the bytes still to be accumulated. -/
theorem exec_acc_add_checksum {i : Instr} {s t : State} (hc : clearsAcc i = false) (h : exec i s = .next t)
    (is : List Instr) :
    t.acc + checksum (accumulatedBytes is) = s.acc + checksum (accumulatedBytes (i :: is)) := by
  cases i
  case ckClr | plStart => cases hc
  case ckAcc b => cases h; simp [accumulatedBytes, BitVec.add_assoc]
  case plByte b => cases h; simp [accumulatedBytes, BitVec.add_assoc]
  case cvtS2h =>
    have hacc : t.acc = s.acc := by
      obtain ⟨-, h'⟩ | ⟨-, e, -, h'⟩ | ⟨-, r, -, h'⟩ := execCvtS2h_cases s <;>
        (cases h'.symm.trans h; rfl)
    rw [hacc, accumulatedBytes]
  all_goals cases h; rfl

/-- A sequence of commands that do not clear `ACC` runs to its end, in the same setting but for the events it took, and
adds to `ACC` the checksum of the bytes it accumulates (41_checksum.md R94). -/
theorem run_cmdWrites_acc {is : List Instr} {s : State} {rest : List BusEvent} (hr : s.inReset = false)
    (hc : ∀ i ∈ is, clearsAcc i = false) (hq : s.pending = is.map (cmdWrite s.cfg) ++ rest) :
    ∃ t, run is.length s = .next t ∧ t.pending = rest ∧ t.cfg = s.cfg ∧ t.inReset = false ∧
      t.acc = s.acc + checksum (accumulatedBytes is) := by
  induction is generalizing s with
  | nil => exact ⟨s, rfl, hq, rfl, hr, (BitVec.add_zero _).symm⟩
  | cons i is ih =>
    obtain ⟨u, hstep, hexec, hupend, hucfg, hur⟩ := step_cmdWrite_next hq hr
    have hacc := exec_acc_add_checksum (hc i List.mem_cons_self) hexec is
    obtain ⟨t, hrun, hpend, hcfg, htr, htacc⟩ :=
      ih hur (fun j hj => hc j (List.mem_cons_of_mem i hj)) (hucfg ▸ hupend)
    exact ⟨t, (run_next is.length s u hstep).trans hrun, hpend, hcfg.trans hucfg, htr, htacc.trans hacc⟩

/-! ### Feeding a frame (20_memory.md R57, 42_stream.md R104) -/

@[simp] theorem accumulatedBytes_map_plByte (p : List Byte) : accumulatedBytes (p.map .plByte) = p := by
  induction p with
  | nil => rfl
  | cons b p ih => simp [accumulatedBytes, ih]

theorem feedFrame_eq (c : Config) (p : List Byte) (b : Byte) :
    feedFrame c p b = cmdWrite c .plStart :: ((p.map .plByte).map (cmdWrite c) ++ [cmdWrite c (.plEnd b)]) := by
  simp [feedFrame, frameCommands]

@[simp] theorem length_feedFrame (c : Config) (p : List Byte) (b : Byte) : (feedFrame c p b).length = p.length + 2 := by
  simp [feedFrame_eq]

/-- A fed frame runs to its end and leaves the verdict on its trailing byte. -/
theorem run_feedFrame {s : State} {p : List Byte} {c : Byte} {rest : List BusEvent} (hr : s.inReset = false)
    (hq : s.pending = feedFrame s.cfg p c ++ rest) :
    ∃ t, run (p.length + 2) s = .next t ∧ t.pending = rest ∧ t.acc = checksum p ∧ t.ckv = true ∧
      t.ckok = (checksum p == c) := by
  rw [feedFrame_eq, List.cons_append, List.append_assoc] at hq
  obtain ⟨u, hstart, hstartExec, hupend, hucfg, hur⟩ := step_cmdWrite_next hq hr
  have huacc : u.acc = 0 := by cases hstartExec; rfl
  obtain ⟨v, hbytes, hvpend, hvcfg, hvr, hvacc⟩ :=
    run_cmdWrites_acc (is := p.map .plByte) hur (by simp [clearsAcc]) (hucfg ▸ hupend)
  rw [List.length_map] at hbytes
  have hvacc : v.acc = checksum p := by simpa [huacc] using hvacc
  obtain ⟨t, hend, hendExec, htpend, -, -⟩ :=
    step_cmdWrite_next (i := .plEnd c) (by rw [hvpend, hvcfg, hucfg]; rfl) hvr
  have hrun : run (p.length + 2) s = .next t := calc
    run (p.length + 2) s = run (p.length + 1) u := run_next _ _ _ hstart
    _ = run 1 v := run_add _ _ _ _ hbytes
    _ = .next t := run_next 0 _ _ hend
  cases hendExec
  exact ⟨_, hrun, htpend, hvacc, rfl, by simp [hvacc]⟩

/-! ### The verdict the host reads (10_state.md R31, 00_scope.md R12) -/

@[simp] theorem State.status_ckv (s : State) : s.status.getLsbD 0 = s.ckv := by
  simp only [State.status, flagBit, BitVec.truncate_eq_setWidth, BitVec.getLsbD_setWidth, BitVec.getLsbD_append]
  simp

@[simp] theorem State.status_ckok (s : State) : s.status.getLsbD 1 = s.ckok := by
  simp only [State.status, flagBit, BitVec.truncate_eq_setWidth, BitVec.getLsbD_setWidth, BitVec.getLsbD_append]
  simp

theorem outcomeOfStatus_of_ckv {s : State} (h : s.ckv = true) :
    outcomeOfStatus (readReg s .status) = some (if s.ckok = true then .success else .checksumMismatch) := by
  rw [outcomeOfStatus, readReg, State.status_ckv, State.status_ckok, h]
  cases s.ckok <;> rfl

/-- Where the structural checks pass, the host's outcome is the verdict the fed block shows. -/
theorem hostDecode_of_run {b : List Byte} {s t : State} (hcheck : structuralCheck (some b) = none)
    (hrun : run ((framePayload b).length + 2)
      { s with pending := feedFrame s.cfg (framePayload b) (frameTrailer b) } = .next t) :
    hostDecode (some b) s = outcomeOfStatus (readReg t .status) := by
  unfold hostDecode
  simp only [hcheck, length_feedFrame, hrun]

end Sys2Proof.Machine

open Sys2Proof Sys2Proof.Machine

/-- Settles O9: the step executes the word, and a word that does not decode raises its error. -/
theorem stepReportsDecodingError : Obligations.StepReportsDecodingError := by
  intro s v e rest hr hq hdec
  rw [step_cmdWordWrite s v rest hq hr]
  exact execute_of_decode_error hdec

/-- Settles O52, by induction on the length of the run. -/
theorem parametersNeverChange : Obligations.ParametersNeverChange :=
  fun _ _ _ h => run_cfg h

/-- Settles O58: a fed frame leaves `CKV` at 1 and `CKOK` at whether the payload's checksum is the trailing byte. -/
theorem hostLearnsChecksumOutcome : Obligations.HostLearnsChecksumOutcome := by
  intro b s hr hcheck
  obtain ⟨t, hrun, -, -, hckv, hckok⟩ := run_feedFrame
    (s := { s with pending := feedFrame s.cfg (framePayload b) (frameTrailer b) }) hr (List.append_nil _).symm
  rw [hostDecode_of_run hcheck hrun, outcomeOfStatus_of_ckv hckv, hckok]
  simp only [beq_iff_eq]
end

