-- ==== Sys2Proof/Proofs/State.lean ====
section
/-! SUPPORT. The proofs of the statements of 10_state.md: the bits of `STATUS`, what each command writes and reads, what a
step can do to the elements of the block, and the invariant of the register map. -/

namespace Sys2Proof

/-- A decoded command exists on the block (30_encoding.md R63). -/
theorem wf_of_decode_ok {hasS2h : Bool} {v : Word} {i : Instr} (h : decode hasS2h v = .ok i) :
    i.wf hasS2h = true := by
  obtain ⟨-, h'⟩ | ⟨_, -, -, h'⟩ | ⟨op, hop, -, -, h'⟩ := decode_cases hasS2h v <;> cases h'.symm.trans h
  cases op
  case cvtS2h =>
    cases hasS2h
    · unfold opcodeOf at hop
      split at hop <;> simp at hop
    · rfl
  all_goals rfl

end Sys2Proof

namespace Sys2Proof.Machine

open Sys2Proof

/-! ### The bits of `STATUS` (10_state.md R31) -/

/-- Every bit of `STATUS`, read off its fields. -/
theorem State.status_getLsbD (s : State) (k : Nat) :
    s.status.getLsbD k =
      if k = 0 then s.ckv else if k = 1 then s.ckok else if k = 2 then s.latch.isSome else if k = 3 then false
      else if k < 8 then s.err.getLsbD (k - 4) else if k = 8 then s.estk else false := by
  simp only [State.status, flagBit, State.pend, BitVec.truncate_eq_setWidth, BitVec.getLsbD_setWidth,
    BitVec.getLsbD_append, BitVec.getLsbD_ofBool]
  grind

theorem State.status_err (s : State) : s.status.extractLsb' 4 4 = s.err := by
  ext k hk
  rw [BitVec.getElem_extractLsb', State.status_getLsbD]
  simp (disch := omega) only [if_neg, if_pos, Nat.add_sub_cancel_left, BitVec.getLsbD_eq_getElem hk]

theorem State.status_reserved_high (s : State) : s.status.extractLsb' 9 23 = 0 := by
  ext k hk
  rw [BitVec.getElem_extractLsb', State.status_getLsbD]
  simp (disch := omega) only [if_neg]
  simp

/-! ### Commands (10_state.md R33) -/

theorem pairByte_of_none {s : State} (b : Byte) (h : s.latch = none) : s.pairByte b = s.holdHigh b := by
  simp only [State.pairByte, h]

theorem pairByte_of_some {s : State} (b : Byte) {hi : Byte} (h : s.latch = some hi) :
    s.pairByte b = (s.setRes (h2s s.cfg.h2sEdge (payloadWord hi b))).dropPending.countSample := by
  simp only [State.pairByte, h]

/-- The parameters, the latch and `CNT` decide what pairing a byte writes to the latch, `CNT` and `RES`. -/
theorem pairByte_congr {s s' : State} (b : Byte) (hcfg : s.cfg = s'.cfg) (hcnt : s.cnt = s'.cnt)
    (hlatch : s.latch = s'.latch) :
    (s.pairByte b).latch = (s'.pairByte b).latch ∧ (s.pairByte b).cnt = (s'.pairByte b).cnt ∧
    ((s.pairByte b).res = (s'.pairByte b).res ∨ ((s.pairByte b).res = s.res ∧ (s'.pairByte b).res = s'.res)) := by
  cases h : s.latch with
  | none => simp [pairByte_of_none b h, pairByte_of_none b (hlatch ▸ h), hcnt]
  | some hi => simp [pairByte_of_some b h, pairByte_of_some b (hlatch ▸ h), hcnt, hcfg]

/-- The parameters and `ARG` decide what `CVT.S2H` does: the error it raises or the pattern it writes to `RES`. -/
theorem execCvtS2h_congr {s s' : State} (hcfg : s.cfg = s'.cfg) (harg : s.arg = s'.arg) :
    (∃ e, execCvtS2h s = .next (s.raise e) ∧ execCvtS2h s' = .next (s'.raise e)) ∨
    (∃ v, execCvtS2h s = .next (s.setRes v).complete ∧ execCvtS2h s' = .next (s'.setRes v).complete) := by
  unfold execCvtS2h State.argOperand
  rw [← hcfg, ← harg]
  cases s.cfg.hasS2h
  · exact .inl ⟨.illop, rfl, rfl⟩
  · cases s2h s.cfg s.arg with
    | error e => exact .inl ⟨e, rfl, rfl⟩
    | ok r => exact .inr ⟨r.zeroExtend 32, rfl, rfl⟩

/-- `CVT.S2H` raises an error or writes `RES`. -/
theorem execCvtS2h_next {s t : State} (h : exec .cvtS2h s = .next t) :
    (∃ e, t = s.raise e) ∨ (∃ v, t = (s.setRes v).complete) := by
  obtain ⟨e, h', -⟩ | ⟨v, h', -⟩ := execCvtS2h_congr (s := s) rfl rfl <;> cases h'.symm.trans h
  · exact .inl ⟨e, rfl⟩
  · exact .inr ⟨v, rfl⟩

/-- The only error of the narrowing is a NaN operand (40_convert.md R84). -/
theorem nan_of_s2h_error {c : Config} {f : Word} {e : CmdError} (h : s2h c f = .error e) :
    wordExp f = 0xFF ∧ wordFrac f ≠ 0 := by
  unfold s2h at h
  by_cases hnan : wordExp f = 0xFF ∧ wordFrac f ≠ 0
  · exact hnan
  · simp only [if_neg hnan] at h
    split_ifs at h

/-- Only `ST.CLR` clears `ESTK` (10_state.md R29). -/
theorem opcode_of_exec_clears_estk {i : Instr} {s t : State} (h : exec i s = .next t) (hs : s.estk = true)
    (ht : t.estk = false) : i.opcode = .stClr := by
  cases i
  case stClr => rfl
  case cvtS2h => obtain ⟨e, rfl⟩ | ⟨v, rfl⟩ := execCvtS2h_next h <;> simp [hs] at ht
  all_goals cases h; simp [hs] at ht

/-- Only `PL.BYTE` changes the latch and leaves a byte in it (42_stream.md R102). -/
theorem opcode_of_exec_holds_byte {i : Instr} {s t : State} (h : exec i s = .next t) (hne : t.latch ≠ s.latch)
    (hpend : t.pend = true) : i.opcode = .plByte := by
  cases i
  case plByte => rfl
  case plStart | plEnd => cases h; cases hpend
  case cvtS2h => obtain ⟨e, rfl⟩ | ⟨v, rfl⟩ := execCvtS2h_next h <;> exact absurd rfl hne
  all_goals cases h; exact absurd rfl hne

/-- A decoded command that sets `ESTK` is `CVT.S2H` of a NaN (60_exceptions.md R123). -/
theorem commandError_of_exec_sets_estk {v : Word} {i : Instr} {s t : State}
    (hdec : decode s.cfg.hasS2h v = .ok i) (h : exec i s = .next t) (hs : s.estk = false) (ht : t.estk = true) :
    commandError s.cfg s.arg v = some .nan := by
  cases i
  case cvtS2h =>
    obtain ⟨habsent, -⟩ | ⟨-, e, herr, -⟩ | ⟨-, r, -, h'⟩ := execCvtS2h_cases s
    · cases habsent.symm.trans (wf_of_decode_ok hdec)
    · rw [commandError, hdec]
      exact if_pos ⟨rfl, nan_of_s2h_error herr⟩
    · cases h'.symm.trans h
      simp [hs] at ht
  all_goals cases h; simp [hs] at ht

/-! ### Steps (10_state.md R22) -/

theorem offset_of_regAt {off : BitVec 5} {r : Reg} (h : regAt off = some r) : off.toNat = r.offset := by
  unfold regAt at h
  split at h <;> cases h <;> assumption

/-- An access is admitted at a register only as a 32-bit one at the register's address (20_memory.md R41, R42). -/
theorem regAddr_of_admittedReg {c : Config} {w : Width} {a : Nat} {off : BitVec 5} {r : Reg}
    (hoff : windowOffset c a = some off) (hreg : admittedReg w off = some r) : w = .w32 ∧ a = regAddr c r := by
  unfold admittedReg at hreg
  split at hreg
  · next hw =>
    have hr := offset_of_regAt hreg
    unfold windowOffset at hoff
    split at hoff <;> cases hoff
    rw [BitVec.toNat_ofNat] at hr
    unfold regAddr
    exact ⟨hw, by omega⟩
  · cases hreg

/-- What one step can do to the elements of the block (10_state.md R22). -/
inductive StepEffect (s : State) : State → Prop where
  /-- No element changes; the reset line, the queue or the word on the bus may. -/
  | quiet (line : Bool) (queue : List BusEvent) (word : Option Word) :
      StepEffect s { s with inReset := line, pending := queue, resp := word }
  /-- `ARG` is written. -/
  | argWritten {v : Word} {rest : List BusEvent} (hq : s.pending = argWrite s.cfg v :: rest) :
      StepEffect s { s.take rest with arg := v }
  /-- A command word that decodes is carried out. -/
  | command {v : Word} {i : Instr} {rest : List BusEvent} {t : State} (hq : s.pending = cmdWordWrite s.cfg v :: rest)
      (hdec : decode s.cfg.hasS2h v = .ok i) (hexec : exec i (s.take rest) = .next t) : StepEffect s t
  /-- A command word that does not decode raises its error. -/
  | decodingError {v : Word} {e : CmdError} {rest : List BusEvent} (hq : s.pending = cmdWordWrite s.cfg v :: rest)
      (hdec : decode s.cfg.hasS2h v = .error e) : StepEffect s ((s.take rest).raise e)
  /-- Reset, asserted before, is released. -/
  | released {rest : List BusEvent} (hr : s.inReset = true) (hq : s.pending = .resetLine false :: rest) :
      StepEffect s (s.take rest).applyReset

/-- A write to a register at the head of the queue (20_memory.md R45). -/
theorem stepEffect_writeReg {s t : State} {v : Word} {rest : List BusEvent} {r : Reg}
    (hq : s.pending = .write .w32 (regAddr s.cfg r) v :: rest) (h : writeReg v (s.take rest) r = .next t) :
    StepEffect s t := by
  cases r
  case cmd =>
    change execute v (s.take rest) = .next t at h
    cases hdec : decode s.cfg.hasS2h v with
    | ok i => exact .command hq hdec (execute_of_decode_ok (s := s.take rest) hdec ▸ h)
    | error e =>
      cases (execute_of_decode_error (s := s.take rest) hdec).symm.trans h
      exact .decodingError hq hdec
  case arg => cases h; exact .argWritten hq
  all_goals cases h; exact .quiet _ _ _

/-- A change of the reset line at the head of the queue (70_reset_and_hazards.md R140). -/
theorem stepEffect_resetLine {s : State} {on : Bool} {rest : List BusEvent}
    (hq : s.pending = .resetLine on :: rest) : StepEffect s (resetLine on (s.take rest)) := by
  cases on
  case true => exact .quiet _ _ _
  case false =>
    cases hr : s.inReset
    · rw [show resetLine false (s.take rest) = s.take rest by simp [resetLine, State.take, hr]]
      exact .quiet _ _ _
    · rw [show resetLine false (s.take rest) = (s.take rest).applyReset by simp [resetLine, State.take, hr]]
      exact .released hr hq

/-- Every step has one of these effects. -/
theorem stepEffect_of_step {s t : State} (h : step s = .next t) : StepEffect s t := by
  cases hq : s.pending with
  | nil => cases (step_nil s hq).symm.trans h; exact .quiet _ _ _
  | cons ev rest =>
    rw [step_cons s ev rest hq] at h
    cases ev with
    | read w a =>
      obtain ⟨-, rfl⟩ | ⟨_, _, _, _, _, hact⟩ := access_next h
      · exact .quiet _ _ _
      · cases hact; exact .quiet _ _ _
    | write w a v =>
      obtain ⟨-, rfl⟩ | ⟨off, r, hoff, -, hreg, hact⟩ := access_next h
      · exact .quiet _ _ _
      · obtain ⟨rfl, rfl⟩ := regAddr_of_admittedReg hoff hreg
        exact stepEffect_writeReg hq hact
    | resetLine on => cases h; exact stepEffect_resetLine hq

/-! ### The invariant of the register map (10_state.md R28, R29, R31) -/

theorem errorCode_le (e : CmdError) : (errorCode e).toNat ≤ 3 := by
  cases e <;> decide

theorem State.Legal.raise {s : State} (h : s.Legal) (e : CmdError) : (s.raise e).Legal :=
  ⟨h.1, errorCode_le e, fun _ => rfl⟩

/-- A command that completes shows no error, so only its verdict matters. -/
theorem State.legal_complete {s : State} (h : s.ckok = true → s.ckv = true) : s.complete.Legal :=
  ⟨h, by simp, by simp⟩

/-- A command completes with a verdict it wrote or found, or raises an error. -/
theorem exec_legal {i : Instr} {s t : State} (hs : s.Legal) (h : exec i s = .next t) : t.Legal := by
  have hverdict : s.ckok = true → s.ckv = true := hs.1
  cases i
  case cvtS2h =>
    obtain ⟨e, rfl⟩ | ⟨v, rfl⟩ := execCvtS2h_next h
    · exact hs.raise e
    · exact State.legal_complete hverdict
  case ckClr | ckCmp | plStart | plEnd => cases h; exact State.legal_complete (by simp)
  all_goals cases h; exact State.legal_complete (by simpa using hverdict)

end Sys2Proof.Machine

open Sys2Proof Sys2Proof.Machine

/-- Settles O51: no verdict and no error shows after reset. -/
theorem resetStateIsLegal : Obligations.ResetStateIsLegal :=
  ⟨id, by decide, by decide⟩

/-- Settles O50: the effects of a step, each on its own, keep the invariant. -/
theorem stepKeepsStateLegal : Obligations.StepKeepsStateLegal := by
  intro s t hs h
  cases stepEffect_of_step h with
  | quiet => exact hs
  | argWritten => exact hs
  | command _ _ hexec => exact exec_legal (s := s.take _) hs hexec
  | decodingError => exact State.Legal.raise (s := s.take _) hs _
  | released => exact resetStateIsLegal

/-- Settles O15: the bits of `STATUS`, one by one and in its fields. -/
theorem statusBitsAreTheFields : Obligations.StatusBitsAreTheFields := by
  intro s
  refine ⟨s.status_ckv, s.status_ckok, ?_, ?_, s.status_err, ?_, s.status_reserved_high⟩ <;>
    exact s.status_getLsbD _

/-- Settles O19: each element of `State.reset` is the value of 10_state.md R32. -/
theorem resetValues : Obligations.ResetValues :=
  ⟨rfl, rfl, rfl, rfl, rfl, rfl, rfl, rfl, rfl⟩

/-- Settles O10: the placed word is the command's encoding, and its `OP` value is 2 only for `CVT.S2H`. -/
theorem placedCommandRunsNext : Obligations.PlacedCommandRunsNext := by
  intro s i
  have hword : BitVec.ofNat 32 ((encode i).toNat % 2 ^ 32) = encode i := by
    rw [Nat.mod_eq_of_lt (encode i).isLt, BitVec.ofNat_toNat, BitVec.setWidth_eq]
  have hop : (opField (encode i) == 2) = decide (i = .cvtS2h) := by
    rw [opField_encode]
    cases i <;> rfl
  rw [step_cmdWordWrite _ (encode i) s.pending (by simp only [State.withFetchWord, hword]; rfl) rfl, execute_encode]
  simp only [State.withFetchWord, State.take, hword, hop]

/-- Settles O47, by cases on the command; `CVT.S2H` raises an error or writes `RES`. -/
theorem commandsWriteOnlyTheirWriteSet : Obligations.CommandsWriteOnlyTheirWriteSet := by
  intro i s t h
  cases i
  case cvtS2h => obtain ⟨e, rfl⟩ | ⟨v, rfl⟩ := execCvtS2h_next h <;> simp [Instr.opcode]
  all_goals cases h; simp [Instr.opcode]

/-- Settles O48, by cases on the command; what `CVT.S2H` and `PL.BYTE` do is fixed by what they read. -/
theorem commandsReadOnlyTheirReadSet : Obligations.CommandsReadOnlyTheirReadSet := by
  intro i s s' t t' hcfg hacc hpair harg h h'
  cases i
  case cvtS2h =>
    obtain ⟨e, hs, hs'⟩ | ⟨v, hs, hs'⟩ := execCvtS2h_congr hcfg (harg rfl) <;>
      (cases hs.symm.trans h; cases hs'.symm.trans h'; simp [Instr.opcode])
  case plByte b =>
    obtain ⟨hcnt, hlatch⟩ := hpair rfl
    have hacc := hacc (by simp [Instr.opcode])
    cases h; cases h'
    obtain ⟨hl, hc, hr⟩ := pairByte_congr (s := s.accumulate b) (s' := s'.accumulate b) b hcfg hcnt hlatch
    simpa [Instr.opcode, hacc, hl, hc] using hr
  case ckAcc | ckCmp | plEnd =>
    have hacc := hacc (by simp [Instr.opcode])
    cases h; cases h'; simp [Instr.opcode, hacc]
  all_goals cases h; cases h'; simp [Instr.opcode, hcfg]

/-- Settles O49, by the effects of a step; a command's writes are those of its write set. -/
theorem onlyListedWritersChangeAnElement : Obligations.OnlyListedWritersChangeAnElement := by
  intro s t h ran released
  cases stepEffect_of_step h with
  | quiet => simp +contextual [State.pend]
  | argWritten hq => simp +contextual [State.pend, State.take, hq]
  | @command v i rest _ hq hdec hexec =>
    have hran {ops : List Opcode} (hi : i.opcode ∈ ops) : ran ops := ⟨v, i, rest, hq, hdec, hi⟩
    have hwriter {ops : List Opcode} {p : Prop} (hframe : i.opcode ∉ ops → p) (hne : ¬p) : ran ops :=
      hran (not_not.mp (mt hframe hne))
    obtain ⟨hacc, hcnt, hres, harg, hlatch, hverdict, -, -⟩ := commandsWriteOnlyTheirWriteSet i _ t hexec
    exact ⟨(.inl <| hwriter hacc ·), (.inl <| hwriter hcnt ·), (.inl <| hwriter hres ·), (absurd harg ·),
      (.inl <| hwriter (congrArg Option.isSome <| hlatch ·) ·),
      fun hne hpend => hran (by simp [opcode_of_exec_holds_byte hexec hne hpend]),
      (.inl <| hwriter (hverdict · |>.1) ·), (.inl <| hwriter (hverdict · |>.2) ·), fun _ => .inl ⟨v, rest, hq⟩,
      fun hs ht => ⟨v, .nan, rest, hq, commandError_of_exec_sets_estk (s := s.take rest) hdec hexec hs ht⟩,
      fun hs ht => .inl (hran (by simp [opcode_of_exec_clears_estk hexec hs ht]))⟩
  | @decodingError v e rest hq hdec =>
    have herr : commandError s.cfg s.arg v = some e := by rw [commandError, hdec]
    simp +contextual [State.pend, State.take, hq, cmdWordWrite, herr]
  | @released rest hr hq =>
    have hrel : released := ⟨hr, rest, hq⟩
    simp [hrel, State.pend, State.applyReset, State.reset]

end

