-- ==== Sys2Proof/Proofs/Memory.lean ====
section
/-! SUPPORT. The proofs of the statements of 20_memory.md: which accesses the window answers, what a read and a write of
each register do, a sequence of accesses, and a frame that passes the host's structural checks. -/

namespace Sys2Proof.Machine

open Sys2Proof

/-! ### Address decode and admission (20_memory.md R41, R42) -/

theorem windowOffset_outside {c : Config} {a : Nat} (h : a < c.base ∨ c.base + 0x1F < a) :
    windowOffset c a = none :=
  if_neg (by omega)

theorem windowOffset_inside {c : Config} {a : Nat} (hlo : c.base ≤ a) (hhi : a ≤ c.base + 0x1F) :
    windowOffset c a = some (BitVec.ofNat 5 (a - c.base)) :=
  if_pos ⟨hlo, hhi⟩

/-- The window has a register at every aligned offset and at no other. -/
theorem regAt_eq_none (off : BitVec 5) : regAt off = none ↔ off.toNat % 4 ≠ 0 := by
  revert off; decide

theorem admittedReg_eq_none (w : Width) (n : Nat) :
    admittedReg w (BitVec.ofNat 5 n) = none ↔ w ≠ .w32 ∨ n % 4 ≠ 0 := by
  by_cases hw : w = .w32
  · simp [admittedReg, hw, regAt_eq_none]
  · simp [admittedReg, hw]

/-- An access in the window, out of reset, acts on a register when it is an aligned 32-bit one; any other is a bus
error (20_memory.md R42, R43). -/
theorem access_inside {w : Width} {a : Nat} {s : State} {act : Reg → Host.Outcome State Fault Refusal}
    (hr : s.inReset = false) (hlo : s.cfg.base ≤ a) (hhi : a ≤ s.cfg.base + 0x1F) :
    ((w = .w32 ∧ (a - s.cfg.base) % 4 = 0) ∧ ∃ r, access w a s act = act r) ∨
    ((w ≠ .w32 ∨ (a - s.cfg.base) % 4 ≠ 0) ∧ access w a s act = .fault .busError) := by
  have hin := windowOffset_inside hlo hhi
  obtain ⟨hout, -⟩ | ⟨_, -, hreset, -⟩ | ⟨off, hoff, -, hreg, h⟩ | ⟨off, r, hoff, -, hreg, h⟩ :=
    access_cases w a s act
  · cases hin.symm.trans hout
  · cases hr.symm.trans hreset
  · cases hin.symm.trans hoff
    exact .inr ⟨(admittedReg_eq_none w _).mp hreg, h⟩
  · cases hin.symm.trans hoff
    have hadm := mt (admittedReg_eq_none w (a - s.cfg.base)).mpr (by simp [hreg])
    exact .inl ⟨by simpa only [not_or, not_not] using hadm, r, h⟩

/-! ### The step of a host access -/

/-- A host access at the head of the queue, read or write: every register it can be admitted at answers it, keeping the
parameters, the reset line and the rest of the queue. -/
theorem step_access {s : State} {w : Width} {a : Nat} {v : Word} {rest : List BusEvent}
    (hq : s.pending = .read w a :: rest ∨ s.pending = .write w a v :: rest) :
    ∃ act, step s = access w a (s.take rest) act ∧
      ∀ r, ∃ t, act r = .next t ∧ t.cfg = s.cfg ∧ t.inReset = s.inReset ∧ t.pending = rest := by
  obtain hq | hq := hq
  · exact ⟨_, step_cons s _ rest hq, fun _ => ⟨_, rfl, rfl, rfl, rfl⟩⟩
  · refine ⟨_, step_cons s _ rest hq, fun r => ?_⟩
    obtain ⟨t, ht, hset⟩ := writeReg_sameSetting v (s.take rest) r
    exact ⟨t, ht, hset.cfg, hset.inReset, hset.pending⟩

theorem step_regRead {s : State} {r : Reg} {rest : List BusEvent} (hr : s.inReset = false)
    (hq : s.pending = regRead s.cfg r :: rest) :
    step s = .next { s with pending := rest, resp := some (readReg s r) } := by
  rw [step_cons s _ rest hq]
  cases r <;> exact access_reg _ (s.take rest) _ hr

theorem step_regWrite {s : State} {r : Reg} {v : Word} {rest : List BusEvent} (hr : s.inReset = false)
    (hq : s.pending = .write .w32 (regAddr s.cfg r) v :: rest) : step s = writeReg v (s.take rest) r := by
  rw [step_cons s _ rest hq]
  exact access_reg r (s.take rest) _ hr

/-! ### The registers by their offsets (10_state.md R30) -/

/-- The eight words of the window, in the order of their offsets. -/
def regs : List Reg := [.cmd, .arg, .res, .status, .acc, .cnt, .rsv18, .rsv1C]

/-- The words of the window that ignore a write (20_memory.md R45). -/
def unwritableRegs : List Reg := [.res, .status, .acc, .cnt, .rsv18, .rsv1C]

theorem writeReg_unwritable (v : Word) (s : State) {r : Reg} (h : r ∈ unwritableRegs) :
    writeReg v s r = .next s := by
  cases r
  case cmd | arg => simp [unwritableRegs] at h
  all_goals rfl

/-! ### A sequence of events (20_memory.md R50) -/

theorem run_two {s t u : State} (hst : step s = .next t) (htu : step t = .next u) : run 2 s = .next u :=
  (run_next 1 s t hst).trans (run_next 0 t u htu)

/-- A run ends at the first step that faults. -/
theorem run_fault (n : Nat) {s : State} {f : Fault} (h : step s = .fault f) : run (n + 1) s = .fault f := by
  rw [run, h]

@[simp] theorem resetLine_inReset (on : Bool) (s : State) : (resetLine on s).inReset = on := by
  cases on
  · cases hr : s.inReset <;> simp [resetLine, hr]
  · rfl

@[simp] theorem resetLine_pending (on : Bool) (s : State) : (resetLine on s).pending = s.pending := by
  unfold resetLine; split <;> rfl

/-- The block answers exactly the accesses outside the window, and the admitted ones out of reset; any other is a
fault. -/
theorem access_answered (w : Width) (a : Nat) (s : State) (act : Reg → Host.Outcome State Fault Refusal) :
    (answered s.cfg s.inReset w a = true ∧ (access w a s act = .next s ∨ ∃ r, access w a s act = act r)) ∨
    (answered s.cfg s.inReset w a = false ∧ ∃ f, access w a s act = .fault f) := by
  unfold answered
  obtain ⟨hoff, h⟩ | ⟨off, hoff, hr, h⟩ | ⟨off, hoff, hr, hreg, h⟩ | ⟨off, r, hoff, hr, hreg, h⟩ :=
    access_cases w a s act
  · exact .inl ⟨by simp [hoff], .inl h⟩
  · exact .inr ⟨by simp [hoff, hr], _, h⟩
  · exact .inr ⟨by simp [hoff, hr, hreg], _, h⟩
  · exact .inl ⟨by simp [hoff, hr, hreg], .inr ⟨r, h⟩⟩

/-- `step_servable` for a host access, where `answered` says which of the two happens. -/
theorem step_access_servable {s : State} {w : Width} {a : Nat} {v : Word} {rest : List BusEvent}
    (hq : s.pending = .read w a :: rest ∨ s.pending = .write w a v :: rest) :
    (∃ t, step s = .next t ∧ t.pending = rest ∧
      servable t.cfg t.inReset rest = servable s.cfg s.inReset s.pending) ∨
    (servable s.cfg s.inReset s.pending = false ∧ ∃ f, step s = .fault f) := by
  have hserv : servable s.cfg s.inReset s.pending =
      (answered s.cfg s.inReset w a && servable s.cfg s.inReset rest) := by
    obtain hq | hq := hq <;> rw [hq, servable]
  obtain ⟨act, hstep, hact⟩ := step_access hq
  rw [hstep, hserv]
  obtain ⟨hans, h | ⟨r, h⟩⟩ | ⟨hans, hfault⟩ := access_answered w a (s.take rest) act <;>
    rw [State.take_cfg, State.take_inReset] at hans
  · exact .inl ⟨_, h, rfl, by simp [hans]⟩
  · obtain ⟨t, ht, hcfg, hline, hpend⟩ := hact r
    exact .inl ⟨t, h.trans ht, hpend, by simp [hans, hcfg, hline]⟩
  · exact .inr ⟨by simp [hans], hfault⟩

/-- A step takes its event off the queue and leaves the rest as servable as the whole was, or it faults on a queue that
is not servable. -/
theorem step_servable {s : State} {ev : BusEvent} {rest : List BusEvent} (hq : s.pending = ev :: rest) :
    (∃ t, step s = .next t ∧ t.pending = rest ∧
      servable t.cfg t.inReset rest = servable s.cfg s.inReset s.pending) ∨
    (servable s.cfg s.inReset s.pending = false ∧ ∃ f, step s = .fault f) := by
  cases ev with
  | read w a => exact step_access_servable (v := 0) (.inl hq)
  | write w a v => exact step_access_servable (.inr hq)
  | resetLine on => exact .inl ⟨_, step_cons s _ rest hq, by simp, by simp [hq, servable]⟩

/-- A run over the whole queue takes every event of a servable one, and faults on any other. -/
theorem run_servable {queue : List BusEvent} {s : State} (hq : s.pending = queue) :
    (servable s.cfg s.inReset queue = true ∧ ∃ t, run queue.length s = .next t ∧ t.pending = []) ∨
    (servable s.cfg s.inReset queue = false ∧ ∃ f, run queue.length s = .fault f) := by
  induction queue generalizing s with
  | nil => exact .inl ⟨rfl, s, rfl, hq⟩
  | cons ev rest ih =>
    obtain ⟨t, ht, hpend, hserv⟩ | ⟨hserv, f, hf⟩ := step_servable hq <;> rw [hq] at hserv
    · rw [← hserv, List.length_cons, run_next rest.length s t ht]
      exact ih hpend
    · exact .inr ⟨hserv, f, run_fault rest.length hf⟩

/-! ### A checked frame (20_memory.md R55, R56) -/

/-- A buffer that passes the checks reaches beyond its trailing byte. -/
theorem length_of_structuralCheck {b : List Byte} (h : structuralCheck (some b) = none) :
    13 + declaredLength b < b.length := by
  simp only [structuralCheck] at h
  split_ifs at h
  omega

theorem frameByte_getElem? {b : List Byte} {i : Nat} (h : i < b.length) : b[i]? = some (frameByte b i) := by
  simp [frameByte, h]

theorem length_framePayload {b : List Byte} (h : 13 + declaredLength b ≤ b.length) :
    (framePayload b).length = declaredLength b := by
  rw [framePayload, List.length_take, List.length_drop]
  omega

end Sys2Proof.Machine

open Sys2Proof Sys2Proof.Machine

/-- Settles O53: by induction on the queue, each step keeping whether the rest is servable or faulting. -/
theorem servableSequencesRunToTheirEnd : Obligations.ServableSequencesRunToTheirEnd := by
  intro s
  obtain ⟨hserv, hrun⟩ | ⟨hserv, hrun⟩ := run_servable (s := s) rfl <;> rw [hserv]
  · exact ⟨fun _ => hrun, nofun⟩
  · exact ⟨nofun, fun _ => hrun⟩

/-- Settles O13: the offset of an address in the window admits a register exactly when the access is an aligned 32-bit
one. -/
theorem onlyAlignedWordAccessHasStep : Obligations.OnlyAlignedWordAccessHasStep := by
  intro s w a v rest hr hlo hhi hq
  obtain ⟨act, hstep, hact⟩ := step_access hq
  rw [hstep]
  obtain ⟨⟨hw, halign⟩, r, h⟩ | ⟨hrefused, h⟩ := access_inside (s := s.take rest) (act := act) hr hlo hhi
  · obtain ⟨t, ht, -⟩ := hact r
    exact ⟨fun _ => ⟨t, h.trans ht⟩, fun hbad => hbad.elim (absurd hw) (absurd halign)⟩
  · exact ⟨fun ⟨hw, halign⟩ => hrefused.elim (absurd hw) (absurd halign), fun _ => h⟩

/-- Settles O14: each offset is a register's, and a read of a register changes only the word on the bus. -/
theorem readReturnsRegister : Obligations.ReadReturnsRegister := by
  intro s off val rest hr hmem
  obtain ⟨r, -, hreg⟩ : ∃ r ∈ regs, (r.offset, readReg s r) = (off, val) := List.mem_map.mp hmem
  cases hreg
  exact ⟨step_regRead hr, fun hq => run_two (step_regRead hr hq) (step_regRead hr rfl)⟩

/-- Settles O16: each offset is a register's, and a write to a register is `writeReg`; the word of the last clause is
`CK.ACC`'s. -/
theorem writeReachesRegister : Obligations.WriteReachesRegister := by
  intro s v rest hr
  refine ⟨(step_cmdWordWrite s v rest · hr), step_regWrite (r := .arg) hr, ?_, ?_, ?_⟩
  · intro off hmem hq
    obtain ⟨r, hun, rfl⟩ : ∃ r ∈ unwritableRegs, r.offset = off := List.mem_map.mp hmem
    rw [step_regWrite hr hq]
    exact writeReg_unwritable v _ hun
  · exact fun hq => run_two (step_regWrite (r := .arg) hr hq) (step_regWrite (r := .arg) hr rfl)
  · rintro b rfl hq
    exact run_two (step_cmdWrite (i := .ckAcc b) hq hr) (step_cmdWrite (i := .ckAcc b) rfl hr)

/-- Settles O17: a command word keeps the queue, so the next step reads the state it left. -/
theorem readAfterCommandSeesItsEffect : Obligations.ReadAfterCommandSeesItsEffect := by
  intro s v r rest hr hq
  obtain ⟨t, ht, hset⟩ := execute_sameSetting v (s.take (regRead s.cfg r :: rest))
  have hpend : t.pending = regRead t.cfg r :: rest := by rw [hset.pending, hset.cfg]; rfl
  exact ⟨t, ht, run_two ((step_cmdWordWrite s v _ hq hr).trans ht) (step_regRead (hset.inReset.trans hr) hpend)⟩

/-- Settles O57: the last check bounds the payload and the trailing byte by the buffer's length. -/
theorem checkedFramesHoldTheirPayload : Obligations.CheckedFramesHoldTheirPayload := by
  intro b hcheck
  have hlen := length_of_structuralCheck hcheck
  refine ⟨length_framePayload hlen.le, hlen, fun i hi => ?_, frameByte_getElem? hlen⟩
  have hbuf : 13 + i < b.length := by rw [length_framePayload hlen.le] at hi; omega
  simp [framePayload, hbuf]

/-- Settles O8: the step executes the word, and a word that decodes is its command. -/
theorem stepRunsDecodedCommand : Obligations.StepRunsDecodedCommand := by
  intro s v i rest hr hq hdec
  rw [step_cmdWordWrite s v rest hq hr]
  exact execute_of_decode_ok hdec

/-- Settles O12: an address outside the window has no offset in it. -/
theorem accessOutsideWindowChangesNothing : Obligations.AccessOutsideWindowChangesNothing := by
  intro s w a v rest hout hq
  obtain ⟨act, hstep, -⟩ := step_access hq
  rw [hstep, access, show windowOffset (s.take rest).cfg a = none from windowOffset_outside hout]
  rfl
end

