-- ==== Sys2Proof/Proofs/Encoding.lean ====
section
/-! SUPPORT. The proofs of the statements of 30_encoding.md: the decoder and the encoder are each other's inverse, the
rows of the opcode map, and what the assembler makes of a line and of a pseudo-command. -/

namespace Sys2Proof

/-! ### A word and its fields (30_encoding.md R60) -/

theorem immHi_append_immLo (v : Word) : immHi v ++ immLo v = immField v :=
  BitVec.extractLsb'_append_extractLsb'_eq_extractLsb' rfl

/-- The three fields make up the whole word. -/
theorem append_fields (v : Word) : opField v ++ (rsvField v ++ immField v) = v := by
  have hlow : rsvField v ++ immField v = v.extractLsb' 0 28 :=
    BitVec.extractLsb'_append_extractLsb'_eq_extractLsb' rfl
  rw [hlow]
  exact BitVec.extractLsb'_append_extractLsb' (w := 4) (len := 28)

theorem word_eq_iff_fields {v w : Word} :
    v = w ↔ opField v = opField w ∧ rsvField v = rsvField w ∧ immField v = immField w := by
  refine ⟨fun h => h ▸ ⟨rfl, rfl, rfl⟩, fun ⟨hop, hrsv, himm⟩ => ?_⟩
  rw [← append_fields v, hop, hrsv, himm, append_fields w]

theorem opField_and (v w : Word) : opField (v &&& w) = opField v &&& opField w := BitVec.extractLsb'_and

theorem rsvField_and (v w : Word) : rsvField (v &&& w) = rsvField v &&& rsvField w := BitVec.extractLsb'_and

theorem immField_and (v w : Word) : immField (v &&& w) = immField v &&& immField w := BitVec.extractLsb'_and

/-! ### The opcode map (30_encoding.md R62, R63) -/

/-- `OP` spells a command when it is the command's number and the block has the command. -/
theorem opcodeOf_eq_some_iff {hasS2h : Bool} {x : BitVec 4} {op : Opcode} :
    opcodeOf hasS2h x = some op ↔ x = opNumber op ∧ (op = .cvtS2h → hasS2h = true) := by
  cases op <;> revert hasS2h x <;> decide

/-- `OP` spells no command exactly at the illegal values (30_encoding.md R63). -/
theorem opcodeOf_eq_none_iff {hasS2h : Bool} {x : BitVec 4} :
    opcodeOf hasS2h x = none ↔ x = 0 ∨ 0xA ≤ x ∨ (x = 2 ∧ hasS2h = false) := by
  revert hasS2h x; decide

/-- No two commands have one number: where every command exists, the opcode map reads each number back. -/
theorem opNumber_injective : Function.Injective opNumber := by
  intro op₁ op₂ h
  have hback (op : Opcode) : opcodeOf true (opNumber op) = some op := opcodeOf_eq_some_iff.mpr ⟨rfl, fun _ => rfl⟩
  exact Option.some.inj ((hback op₁).symm.trans (h ▸ hback op₂))

/-! ### What a word decodes to (30_encoding.md R65) -/

@[simp] theorem opcode_instr (op : Opcode) (v : Word) : (op.instr v).opcode = op := by
  cases op <;> rfl

theorem decode_eq_illop_iff {hasS2h : Bool} {v : Word} :
    decode hasS2h v = .error .illop ↔ opcodeOf hasS2h (opField v) = none := by
  obtain ⟨hop, h⟩ | ⟨op, hop, -, h⟩ | ⟨op, hop, -, -, h⟩ := decode_cases hasS2h v <;> simp [hop, h]

/-- A word decodes to a command when its `OP` spells one and its unused bits are 0. -/
theorem decode_eq_ok_iff {hasS2h : Bool} {v : Word} {i : Instr} :
    decode hasS2h v = .ok i ↔
      (opField v = opNumber i.opcode ∧ (i.opcode = .cvtS2h → hasS2h = true)) ∧ rsvField v = 0 ∧
        i.opcode.form.immOk v = true ∧ i.opcode.instr v = i := by
  rw [← opcodeOf_eq_some_iff]
  constructor
  · intro hi
    obtain ⟨-, h⟩ | ⟨op, -, -, h⟩ | ⟨op, hop, hrsv, himm, h⟩ := decode_cases hasS2h v <;> cases h.symm.trans hi
    rw [opcode_instr]
    exact ⟨hop, hrsv, himm, rfl⟩
  · rintro ⟨hop, hrsv, himm, hinstr⟩
    simp [decode, hop, hrsv, himm, hinstr]

/-- `IMM` of a command whose operand is the low byte of a word with a clear `IMM[15:8]` is the word's `IMM`. -/
theorem immField_encode_byte {i : Instr} {v : Word} (hb : i.immBits = (immLo v).zeroExtend 32) (hv : immHi v = 0) :
    immField (encode i) = immField v := by
  obtain ⟨hlo, hhi⟩ := immLo_immHi_encode hb
  rw [← immHi_append_immLo, ← immHi_append_immLo v, hlo, hhi, hv]

theorem immField_encode_no_operand {i : Instr} (hi : i.immBits = 0) : immField (encode i) = 0 := by
  rw [immField_encode, hi]
  rfl

/-- Encoding the operand that a word's form reads gives the word's `IMM` back. -/
theorem immField_encode_instr {op : Opcode} {v : Word} (himm : op.form.immOk v = true) :
    immField (encode (op.instr v)) = immField v := by
  cases op
  case cvtH2s => exact immField_encode_cvtH2s _
  case ckAcc | ckCmp | plByte | plEnd => exact immField_encode_byte rfl (beq_iff_eq.mp himm)
  all_goals exact (immField_encode_no_operand rfl).trans (beq_iff_eq.mp himm).symm

/-- A word that decodes to a command is the command's encoding: it agrees with it in every field. -/
theorem encode_of_decode_ok {hasS2h : Bool} {v : Word} {i : Instr} (h : decode hasS2h v = .ok i) : encode i = v := by
  obtain ⟨⟨hop, -⟩, hrsv, himm, hinstr⟩ := decode_eq_ok_iff.mp h
  refine word_eq_iff_fields.mpr ⟨?_, ?_, ?_⟩
  · rw [opField_encode, hop]
  · rw [rsvField_encode, hrsv]
  · rw [← hinstr]
    exact immField_encode_instr himm

/-! ### The rows' match and mask (30_encoding.md R62) -/

/-- Every mask compares the whole of `OP` and `RSV`. -/
theorem mask_fields (op : Opcode) :
    opField op.mask = BitVec.allOnes 4 ∧ rsvField op.mask = BitVec.allOnes 12 := by
  cases op <;> exact ⟨rfl, rfl⟩

theorem matchBits_fields (op : Opcode) :
    opField op.matchBits = opNumber op ∧ rsvField op.matchBits = 0 ∧ immField op.matchBits = 0 := by
  cases op <;> exact ⟨rfl, rfl, rfl⟩

/-- The mask leaves of `IMM` the bits that the row's form does not use. -/
theorem immField_and_mask_eq_zero_iff (op : Opcode) (v : Word) :
    immField v &&& immField op.mask = 0 ↔ op.form.immOk v = true := by
  cases op
  case cvtH2s => exact ⟨fun _ => rfl, fun _ => BitVec.and_zero⟩
  case ckAcc | ckCmp | plByte | plEnd =>
    change immField v &&& (0xFF#8 ++ 0#8) = 0#8 ++ 0#8 ↔ (immHi v == 0) = true
    rw [← immHi_append_immLo, BitVec.and_append, BitVec.and_zero, BitVec.append_left_inj, beq_iff_eq,
      show 0xFF#8 = BitVec.allOnes 8 from rfl, BitVec.and_allOnes]
    rfl
  all_goals
    change immField v &&& BitVec.allOnes 16 = 0 ↔ (immField v == 0) = true
    rw [BitVec.and_allOnes, beq_iff_eq]

/-- A word matches a row when `OP` is the row's and every bit that the row's form does not use is 0. -/
theorem and_mask_eq_matchBits_iff (op : Opcode) (v : Word) :
    v &&& op.mask = op.matchBits ↔
      opField v = opNumber op ∧ rsvField v = 0 ∧ op.form.immOk v = true := by
  obtain ⟨hmop, hmrsv⟩ := mask_fields op
  obtain ⟨hop, hrsv, himm⟩ := matchBits_fields op
  rw [word_eq_iff_fields, opField_and, rsvField_and, immField_and, hmop, hmrsv, hop, hrsv, himm,
    BitVec.and_allOnes, BitVec.and_allOnes, immField_and_mask_eq_zero_iff]

/-- A word decodes to a command of a row when it matches the row and the block has the row's command. -/
theorem decode_ok_opcode_iff {hasS2h : Bool} {v : Word} {op : Opcode} :
    (∃ i, decode hasS2h v = .ok i ∧ i.opcode = op) ↔
      v &&& op.mask = op.matchBits ∧ (op = .cvtS2h → hasS2h = true) := by
  rw [and_mask_eq_matchBits_iff]
  constructor
  · rintro ⟨i, hi, rfl⟩
    obtain ⟨⟨hop, hhas⟩, hrsv, himm, -⟩ := decode_eq_ok_iff.mp hi
    exact ⟨⟨hop, hrsv, himm⟩, hhas⟩
  · rintro ⟨⟨hop, hrsv, himm⟩, hhas⟩
    refine ⟨op.instr v, decode_eq_ok_iff.mpr ?_, opcode_instr op v⟩
    rw [opcode_instr]
    exact ⟨⟨hop, hhas⟩, hrsv, himm, rfl⟩

end Sys2Proof

namespace Sys2Proof.Machine

open Sys2Proof

/-! ### Assembler lines and programs (30_encoding.md R67) -/

@[simp] theorem immediate_toNat {w : Nat} (x : BitVec w) : immediate w x.toNat = some x := by
  rw [immediate_of_lt w _ x.isLt, BitVec.ofNat_toNat, BitVec.setWidth_eq]

/-- The write to `CMD` of a command with an immediate: an error exactly where the immediate does not fit, and the row's
match with the immediate in place where it does. -/
theorem map_immediate_cmdWrite {w : Nat} {cmd : BitVec w → Instr} {m : Word} (hw : w ≤ 32)
    (hcmd : ∀ x, encode (cmd x) = m ||| x.zeroExtend 32) (c : Config) (n : Nat) :
    ((immediate w n).map (fun x => cmdWrite c (cmd x)) = none ↔ 2 ^ w ≤ n) ∧
    (n < 2 ^ w → (immediate w n).map (fun x => cmdWrite c (cmd x)) =
      some (.write .w32 c.base (m ||| BitVec.ofNat 32 n))) := by
  constructor
  · rw [Option.map_eq_none_iff, immediate_eq_none]
  · intro hn
    rw [immediate_of_lt w n hn, Option.map_some, cmdWrite, hcmd, BitVec.zeroExtend,
      BitVec.setWidth_ofNat_of_le_of_lt hw hn]
    rfl

theorem assemble_cons {c : Config} {l : AsmLine} {ls : List AsmLine} {ev : BusEvent} {evs : List BusEvent}
    (hl : assembleLine c l = some ev) (hls : assemble c ls = some evs) : assemble c (l :: ls) = some (ev :: evs) := by
  simp only [assemble, hl, hls]

/-- One line for each byte of a sequence, where each line is the write of one command, before further lines. -/
theorem assemble_map_append {c : Config} {line : Nat → AsmLine} {cmd : Byte → Instr} {ls : List AsmLine}
    {evs : List BusEvent} (hline : ∀ b : Byte, assembleLine c (line b.toNat) = some (cmdWrite c (cmd b)))
    (hls : assemble c ls = some evs) (bs : List Byte) :
    assemble c ((bs.map BitVec.toNat).map line ++ ls) = some (bs.map (fun b => cmdWrite c (cmd b)) ++ evs) := by
  induction bs with
  | nil => exact hls
  | cons b bs ih => exact assemble_cons (hline b) ih

@[simp] theorem assembleLine_ckAcc (c : Config) (b : Byte) :
    assembleLine c (.ckAcc b.toNat) = some (cmdWrite c (.ckAcc b)) := by
  simp [assembleLine]

@[simp] theorem assembleLine_plByte (c : Config) (b : Byte) :
    assembleLine c (.plByte b.toNat) = some (cmdWrite c (.plByte b)) := by
  simp [assembleLine]

@[simp] theorem assembleLine_plEnd (c : Config) (b : Byte) :
    assembleLine c (.plEnd b.toNat) = some (cmdWrite c (.plEnd b)) := by
  simp [assembleLine]

/-! ### Pseudo-commands (30_encoding.md R68) -/

/-- Two payload bytes expand to the one line of their big-endian word (20_memory.md R48). -/
theorem expand_cvtH2sBe (hi lo : Byte) :
    expand (.cvtH2sBe hi.toNat lo.toNat) = some [.cvtH2s (hi ++ lo).toNat] := by
  rw [expand, if_pos ⟨hi.isLt, lo.isLt⟩, BitVec.toNat_append]

end Sys2Proof.Machine

open Sys2Proof Sys2Proof.Machine

/-- Settles O2: the fields of an encoding are the command's own. -/
theorem encodeThenDecode : Obligations.EncodeThenDecode :=
  fun _ _ hwf => decode_encode hwf

/-- Settles O3: the word and the encoding agree in every field, since the bits that the form does not use are 0. -/
theorem decodeThenEncode : Obligations.DecodeThenEncode :=
  fun _ _ _ h => ⟨encode_of_decode_ok h, wf_of_decode_ok h⟩

/-- Settles O4: the mask compares `OP` and the unused bits, and `OP` tells the rows apart. -/
theorem wordEncodesItsTableRow : Obligations.WordEncodesItsTableRow := by
  refine ⟨fun _ _ _ => decode_ok_opcode_iff, fun v op₁ op₂ h₁ h₂ => opNumber_injective ?_⟩
  obtain ⟨hop₁, -⟩ := (and_mask_eq_matchBits_iff op₁ v).mp h₁
  obtain ⟨hop₂, -⟩ := (and_mask_eq_matchBits_iff op₂ v).mp h₂
  exact hop₁.symm.trans hop₂

/-- Settles O5: `ILLOP` is the answer exactly where `OP` spells no command, and an error writes only `ERR` and `ESTK`. -/
theorem illegalOpcodesRaiseIllop : Obligations.IllegalOpcodesRaiseIllop :=
  fun _ _ => ⟨decode_eq_illop_iff.trans opcodeOf_eq_none_iff, execute_of_decode_error⟩

/-- Settles O55: each line of the four expansions has an operand that fits; the byte sequences by induction. -/
theorem pseudoCommandsExpand : Obligations.PseudoCommandsExpand := by
  intro c
  refine ⟨fun hi lo => ?_, fun v => ?_, fun bs => ?_, fun bs t => ?_⟩
  · rw [expand_cvtH2sBe, Option.bind_some]
    exact assemble_cons (by simp [assembleLine]) rfl
  · exact assemble_cons (by simp [assembleLine]) rfl
  · have hbytes := assemble_map_append (assembleLine_ckAcc c) (ls := []) rfl bs
    simp only [List.append_nil] at hbytes
    exact assemble_cons rfl hbytes
  · have hend := assemble_cons (assembleLine_plEnd c t) (ls := []) rfl
    exact assemble_cons rfl (assemble_map_append (assembleLine_plByte c) hend bs)

/-- Settles O56: each of the five lines is the write of its command, whose encoding is its row's match and the
immediate. -/
theorem immediatesThatDoNotFitAreErrors : Obligations.ImmediatesThatDoNotFitAreErrors := by
  intro c n
  refine ⟨fun row hrow => ?_, map_immediate_cmdWrite (cmd := .cvtH2s) (by decide) (fun _ => rfl) c n⟩
  simp only [List.mem_cons, List.not_mem_nil, or_false] at hrow
  obtain rfl | rfl | rfl | rfl := hrow
  · exact map_immediate_cmdWrite (cmd := .ckAcc) (by decide) (fun _ => rfl) c n
  · exact map_immediate_cmdWrite (cmd := .ckCmp) (by decide) (fun _ => rfl) c n
  · exact map_immediate_cmdWrite (cmd := .plByte) (by decide) (fun _ => rfl) c n
  · exact map_immediate_cmdWrite (cmd := .plEnd) (by decide) (fun _ => rfl) c n

/-- Settles O1, by running the decoder on each word. -/
theorem specWordsDecode : Obligations.SpecWordsDecode :=
  ⟨rfl, rfl, rfl, rfl, rfl, rfl, rfl, rfl, rfl, rfl, rfl, rfl, rfl, rfl, rfl, rfl⟩
end

