-- ==== Sys2Proof/Proofs/Convert.lean ====
section
/-! SUPPORT. The proofs of the statements of 40_convert.md: the fields of binary16 and binary32 patterns, the widening and
the narrowing by their cases, what they do to the value a pattern stands for, and the two commands. -/

namespace Sys2Proof.Machine

open Sys2Proof

/-! ### Patterns and their fields (00_scope.md R11) -/

theorem toNat_append_add {v w : Nat} (x : BitVec v) (y : BitVec w) : (x ++ y).toNat = x.toNat * 2 ^ w + y.toNat := by
  rw [BitVec.toNat_append, ← Nat.shiftLeft_add_eq_or_of_lt y.isLt, Nat.shiftLeft_eq]

/-- The three fields make up the whole binary16 pattern. -/
theorem append_half_fields (h : Half) : halfSign h ++ halfExp h ++ halfFrac h = h := by
  have hhigh : halfSign h ++ halfExp h = h.extractLsb' 10 6 :=
    BitVec.extractLsb'_append_extractLsb'_eq_extractLsb' rfl
  rw [hhigh]
  exact BitVec.extractLsb'_append_extractLsb' (w := 6) (len := 10)

/-- The three fields make up the whole binary32 pattern. -/
theorem append_word_fields (f : Word) : wordSign f ++ wordExp f ++ wordFrac f = f := by
  have hhigh : wordSign f ++ wordExp f = f.extractLsb' 23 9 :=
    BitVec.extractLsb'_append_extractLsb'_eq_extractLsb' rfl
  rw [hhigh]
  exact BitVec.extractLsb'_append_extractLsb' (w := 9) (len := 23)

theorem wordMag_toNat (f : Word) : (wordMag f).toNat = (wordExp f).toNat * 2 ^ 23 + (wordFrac f).toNat := by
  have hfields : wordExp f ++ wordFrac f = wordMag f :=
    BitVec.extractLsb'_append_extractLsb'_eq_extractLsb' rfl
  rw [← hfields]
  exact toNat_append_add _ _

section
variable (s : BitVec 1) (e : BitVec 5) (m : BitVec 10)

@[simp] theorem halfSign_append : halfSign (s ++ e ++ m) = s := by
  rw [halfSign, BitVec.extractLsb'_append_eq_of_le (by decide)]
  exact BitVec.extractLsb'_append_eq_left

@[simp] theorem halfExp_append : halfExp (s ++ e ++ m) = e := by
  rw [halfExp, BitVec.extractLsb'_append_eq_of_le (by decide)]
  exact BitVec.extractLsb'_append_eq_right

@[simp] theorem halfFrac_append : halfFrac (s ++ e ++ m) = m := BitVec.extractLsb'_append_eq_right

@[simp] theorem halfSign_append_magnitude (mag : BitVec 15) : halfSign (s ++ mag) = s :=
  BitVec.extractLsb'_append_eq_left

end

section
variable (s : BitVec 1) (e : BitVec 8) (m : BitVec 23)

@[simp] theorem wordSign_append : wordSign (s ++ e ++ m) = s := by
  rw [wordSign, BitVec.extractLsb'_append_eq_of_le (by decide)]
  exact BitVec.extractLsb'_append_eq_left

@[simp] theorem wordExp_append : wordExp (s ++ e ++ m) = e := by
  rw [wordExp, BitVec.extractLsb'_append_eq_of_le (by decide)]
  exact BitVec.extractLsb'_append_eq_right

@[simp] theorem wordFrac_append : wordFrac (s ++ e ++ m) = m := BitVec.extractLsb'_append_eq_right

/-- A fraction of ten bits and thirteen zeros is one of 23 bits. -/
theorem append_fraction_zeros (m : BitVec 10) : s ++ e ++ m ++ 0#13 = s ++ e ++ (m ++ 0#13) :=
  BitVec.append_assoc

end

/-! ### The literal widening (40_convert.md R81) -/

theorem and_half_fields (h : Half) (s : BitVec 1) (e : BitVec 5) (m : BitVec 10) :
    h &&& (s ++ e ++ m) = (halfSign h &&& s) ++ (halfExp h &&& e) ++ (halfFrac h &&& m) := by
  rw [← BitVec.and_append, ← BitVec.and_append, append_half_fields]

theorem and_halfSign_mask (h : Half) : h &&& 0x8000 = halfSign h ++ 0#5 ++ 0#10 :=
  (and_half_fields h (BitVec.allOnes 1) 0#5 0#10).trans (by simp only [BitVec.and_allOnes, BitVec.and_zero])

theorem and_halfExp_mask (h : Half) : h &&& 0x7C00 = 0#1 ++ halfExp h ++ 0#10 :=
  (and_half_fields h 0#1 (BitVec.allOnes 5) 0#10).trans (by simp only [BitVec.and_allOnes, BitVec.and_zero])

theorem and_halfFrac_mask (h : Half) : h &&& 0x03FF = 0#1 ++ 0#5 ++ halfFrac h :=
  (and_half_fields h 0#1 0#5 (BitVec.allOnes 10)).trans (by simp only [BitVec.and_allOnes, BitVec.and_zero])

/-- Bit 15 moves to bit 31. -/
theorem widen_sign (s : BitVec 1) : (s ++ 0#5 ++ 0#10).zeroExtend 32 <<< 16 = s ++ 0#8 ++ 0#23 := by
  revert s; decide

/-- Adding 0x1C000, which is 112 at bit 10, re-biases the exponent on its way from bits 14:10 to bits 30:23. -/
theorem widen_exponent (e : BitVec 5) :
    ((0#1 ++ e ++ 0#10).zeroExtend 32 + 0x1C000) <<< 13 = 0#1 ++ (e.zeroExtend 8 + 0x70) ++ 0#23 := by
  revert e; decide

/-- Bits 9:0 move to bits 22:13. -/
theorem widen_fraction (m : BitVec 10) :
    (0#1 ++ 0#5 ++ m).zeroExtend 32 <<< 13 = 0#1 ++ 0#8 ++ (m ++ 0#13) := by
  apply BitVec.eq_of_toNat_eq
  simp only [BitVec.zero_append_zero, BitVec.zeroExtend, BitVec.toNat_shiftLeft, BitVec.toNat_setWidth,
    Nat.shiftLeft_eq]
  rw [toNat_append_add, toNat_append_add, toNat_append_add]
  have hm := m.isLt
  bv_omega

/-- The literal widening, field by field. -/
theorem h2sLiteral_eq (h : Half) :
    h2sLiteral h = halfSign h ++ ((halfExp h).zeroExtend 8 + 0x70) ++ (halfFrac h ++ 0#13) := by
  simp only [h2sLiteral]
  rw [and_halfSign_mask, and_halfExp_mask, and_halfFrac_mask, widen_sign, widen_exponent, widen_fraction,
    BitVec.or_append, BitVec.or_append, BitVec.or_append, BitVec.or_append]
  simp only [BitVec.or_zero, BitVec.zero_or]

@[simp] theorem wordSign_h2sLiteral (h : Half) : wordSign (h2sLiteral h) = halfSign h := by
  rw [h2sLiteral_eq, wordSign_append]

/-- The re-biased exponent never carries: 31 + 112 is below 256. -/
@[simp] theorem wordExp_h2sLiteral_toNat (h : Half) :
    (wordExp (h2sLiteral h)).toNat = (halfExp h).toNat + 112 := by
  rw [h2sLiteral_eq, wordExp_append]
  bv_omega

@[simp] theorem wordFrac_h2sLiteral (h : Half) : wordFrac (h2sLiteral h) = halfFrac h ++ 0#13 := by
  rw [h2sLiteral_eq, wordFrac_append]

theorem wordFrac_h2sLiteral_toNat (h : Half) : (wordFrac (h2sLiteral h)).toNat = (halfFrac h).toNat * 2 ^ 13 := by
  rw [wordFrac_h2sLiteral, toNat_append_add, BitVec.toNat_zero, Nat.add_zero]

theorem wordExp_h2sLiteral_ne (h : Half) : wordExp (h2sLiteral h) ≠ 0xFF := by
  have hexp := wordExp_h2sLiteral_toNat h
  bv_omega

/-! ### The highest 1 bit of a fraction (40_convert.md R82) -/

theorem highestOneBelow_eq {m : BitVec 10} {k n : Nat} (hbit : m.getLsbD k = true)
    (hmax : ∀ j, k < j → m.getLsbD j = false) (hk : k < n) : highestOneBelow m n = k := by
  induction n with
  | zero => omega
  | succ n ih =>
    rw [highestOneBelow]
    obtain rfl | hlt : k = n ∨ k < n := by omega
    · rw [if_pos hbit]
    · rw [hmax n hlt]
      exact ih hlt

theorem highestOne_eq {m : BitVec 10} {k : Nat} (hbit : m.getLsbD k = true)
    (hmax : ∀ j, k < j → m.getLsbD j = false) : highestOne m = k :=
  highestOneBelow_eq hbit hmax (BitVec.lt_of_getLsbD hbit)

theorem highestOne_eq_log2 {m : BitVec 10} (hm : m ≠ 0) : highestOne m = m.toNat.log2 := by
  have hne : m.toNat ≠ 0 := fun h => hm (BitVec.eq_of_toNat_eq h)
  refine highestOne_eq (Nat.testBit_log2 hne) fun j hj => Nat.testBit_lt_two_pow ?_
  exact (Nat.log2_lt hne).mp hj

/-- The highest 1 bit bounds the fraction from both sides, and is one of the ten. -/
theorem highestOne_bounds {m : BitVec 10} (hm : m ≠ 0) :
    2 ^ highestOne m ≤ m.toNat ∧ m.toNat < 2 ^ (highestOne m + 1) ∧ highestOne m ≤ 9 := by
  have hne : m.toNat ≠ 0 := fun h => hm (BitVec.eq_of_toNat_eq h)
  rw [highestOne_eq_log2 hm]
  exact ⟨Nat.log2_self_le hne, Nat.lt_log2_self, Nat.le_of_lt_succ ((Nat.log2_lt hne).mpr m.isLt)⟩

/-! ### The IEEE widening (40_convert.md R82) -/

theorem h2sIeee_subnormal {h : Half} (he : halfExp h = 0) :
    h2sIeee h = halfSign h ++ BitVec.ofNat 8 (103 + highestOne (halfFrac h)) ++
      (((halfFrac h).zeroExtend 23 <<< (23 - highestOne (halfFrac h))) &&& 0x7FFFFF) := by
  simp only [h2sIeee, if_pos he]

theorem h2sIeee_nan {h : Half} (he : halfExp h ≠ 0) :
    h2sIeee h = halfSign h ++ 0xFF#8 ++ (halfFrac h ++ 0#13) := by
  simp only [h2sIeee, if_neg he]
  exact append_fraction_zeros _ _ _

@[simp] theorem wordSign_h2sIeee (h : Half) : wordSign (h2sIeee h) = halfSign h := by
  by_cases he : halfExp h = 0
  · rw [h2sIeee_subnormal he, wordSign_append]
  · rw [h2sIeee_nan he, wordSign_append]

theorem wordExp_h2sIeee_toNat {h : Half} (he : halfExp h = 0) (hm : halfFrac h ≠ 0) :
    (wordExp (h2sIeee h)).toNat = 103 + highestOne (halfFrac h) := by
  obtain ⟨-, -, hk⟩ := highestOne_bounds hm
  rw [h2sIeee_subnormal he, wordExp_append, BitVec.toNat_ofNat]
  omega

/-- The shift by `23 - k` moves the leading 1 out of the fraction. -/
theorem significand_h2sIeee {h : Half} (he : halfExp h = 0) (hm : halfFrac h ≠ 0) :
    2 ^ 23 + (wordFrac (h2sIeee h)).toNat = (halfFrac h).toNat * 2 ^ (23 - highestOne (halfFrac h)) := by
  obtain ⟨hlo, hhi, hk⟩ := highestOne_bounds hm
  rw [h2sIeee_subnormal he, wordFrac_append, show (0x7FFFFF : BitVec 23) = BitVec.allOnes 23 from rfl,
    BitVec.and_allOnes]
  generalize highestOne (halfFrac h) = k at *
  have hpow : 2 ^ 23 = 2 ^ k * 2 ^ (23 - k) := by rw [← Nat.pow_add, Nat.add_sub_cancel' (by omega)]
  have hge : 2 ^ 23 ≤ (halfFrac h).toNat * 2 ^ (23 - k) := hpow.trans_le (Nat.mul_le_mul_right _ hlo)
  have hlt : (halfFrac h).toNat * 2 ^ (23 - k) < 2 * 2 ^ 23 := by
    rw [hpow, ← Nat.mul_assoc, ← Nat.pow_succ']
    exact Nat.mul_lt_mul_of_pos_right hhi (Nat.two_pow_pos _)
  rw [BitVec.toNat_shiftLeft, BitVec.zeroExtend, BitVec.toNat_setWidth_of_le (by decide), Nat.shiftLeft_eq]
  omega

/-! ### The widening function by the class of its operand (40_convert.md R81) -/

/-- ±0.0 and ±infinity, the special patterns. -/
theorem h2s_special (edge : H2sEdge) (s : BitVec 1) :
    h2s edge (s ++ 0#5 ++ 0#10) = s ++ 0#8 ++ 0#23 ∧ h2s edge (s ++ 31#5 ++ 0#10) = s ++ 0xFF#8 ++ 0#23 := by
  cases edge <;> revert s <;> decide

theorem h2s_of_not_special {h : Half} (hs : h ∉ [(0x0000 : Half), 0x8000, 0x7C00, 0xFC00]) (edge : H2sEdge) :
    h2s edge h = if edge = .ieee ∧ (halfExp h = 0 ∨ halfExp h = 31) then h2sIeee h else h2sLiteral h := by
  simp only [List.mem_cons, List.not_mem_nil, or_false, not_or] at hs
  obtain ⟨hpz, hnz, hpi, hni⟩ := hs
  simp only [h2s, if_neg hpz, if_neg hnz, if_neg hpi, if_neg hni]

theorem special_fields {h : Half} (hs : h ∈ [(0x0000 : Half), 0x8000, 0x7C00, 0xFC00]) :
    halfFrac h = 0 ∧ (halfExp h = 0 ∨ halfExp h = 31) := by
  simp only [List.mem_cons, List.not_mem_nil, or_false] at hs
  obtain rfl | rfl | rfl | rfl := hs <;> decide

/-- The widening by the fields of its operand: the special patterns are the ones with fraction 0 and exponent field 0
or 31. -/
theorem h2s_eq (edge : H2sEdge) (h : Half) :
    h2s edge h =
      if halfFrac h = 0 ∧ halfExp h = 0 then halfSign h ++ 0#8 ++ 0#23
      else if halfFrac h = 0 ∧ halfExp h = 31 then halfSign h ++ 0xFF#8 ++ 0#23
      else if edge = .ieee ∧ (halfExp h = 0 ∨ halfExp h = 31) then h2sIeee h
      else h2sLiteral h := by
  by_cases hzero : halfFrac h = 0 ∧ halfExp h = 0
  · obtain ⟨hm, he⟩ := hzero
    rw [if_pos ⟨hm, he⟩]
    conv_lhs => rw [← append_half_fields h, hm, he]
    exact (h2s_special edge _).1
  by_cases hinf : halfFrac h = 0 ∧ halfExp h = 31
  · obtain ⟨hm, he⟩ := hinf
    rw [if_neg hzero, if_pos ⟨hm, he⟩]
    conv_lhs => rw [← append_half_fields h, hm, he]
    exact (h2s_special edge _).2
  · rw [if_neg hzero, if_neg hinf, h2s_of_not_special fun hs => ?_]
    obtain ⟨hm, he | he⟩ := special_fields hs
    · exact hzero ⟨hm, he⟩
    · exact hinf ⟨hm, he⟩

/-- Patterns with a fraction under `LITERAL`, and normal ones under both settings, are widened literally. -/
theorem h2s_eq_literal {edge : H2sEdge} {h : Half}
    (hclass : edge = .literal ∧ halfFrac h ≠ 0 ∨ halfExp h ≠ 0 ∧ halfExp h ≠ 31) : h2s edge h = h2sLiteral h := by
  rw [h2s_eq, if_neg, if_neg, if_neg]
  · rintro ⟨rfl, he | he⟩ <;> simp [he] at hclass
  · rintro ⟨hm, he⟩
    simp [hm, he] at hclass
  · rintro ⟨hm, he⟩
    simp [hm, he] at hclass

theorem h2s_ieee_eq {h : Half} (hm : halfFrac h ≠ 0) (he : halfExp h = 0 ∨ halfExp h = 31) :
    h2s .ieee h = h2sIeee h := by
  rw [h2s_eq, if_neg fun hz => hm hz.1, if_neg fun hi => hm hi.1, if_pos ⟨rfl, he⟩]

theorem h2s_zero {h : Half} (edge : H2sEdge) (hm : halfFrac h = 0) (he : halfExp h = 0) :
    h2s edge h = halfSign h ++ 0#8 ++ 0#23 := by
  rw [h2s_eq, if_pos ⟨hm, he⟩]

theorem wordSign_h2s (edge : H2sEdge) (h : Half) : wordSign (h2s edge h) = halfSign h := by
  rw [h2s_eq]
  split_ifs
  · exact wordSign_append _ _ _
  · exact wordSign_append _ _ _
  · exact wordSign_h2sIeee h
  · exact wordSign_h2sLiteral h

/-! ### Values (00_scope.md R11, log 15) -/

theorem halfIsNormal_iff_ne {h : Half} : halfIsNormal h = true ↔ halfExp h ≠ 0 ∧ halfExp h ≠ 31 := by
  simp [halfIsNormal]

theorem halfIsNormal_iff {h : Half} : halfIsNormal h = true ↔ 1 ≤ (halfExp h).toNat ∧ (halfExp h).toNat ≤ 30 := by
  rw [halfIsNormal_iff_ne]
  generalize halfExp h = e
  revert e; decide

theorem halfMagnitude_of_exp {h : Half} {n : Nat} (he : (halfExp h).toNat = n + 1) :
    halfMagnitude h = (1024 + (halfFrac h).toNat) * 2 ^ n * 2 ^ 125 := by
  have hne : halfExp h ≠ 0 := fun h0 => by simp [h0] at he
  rw [halfMagnitude, if_neg hne, he, Nat.add_sub_cancel]

theorem wordMagnitude_of_exp {f : Word} {n : Nat} (he : (wordExp f).toNat = n + 1) :
    wordMagnitude f = (2 ^ 23 + (wordFrac f).toNat) * 2 ^ n := by
  have hne : wordExp f ≠ 0 := fun h0 => by simp [h0] at he
  rw [wordMagnitude, if_neg hne, he, Nat.add_sub_cancel]

theorem wordIsNaN_of_exp_ne {f : Word} (he : wordExp f ≠ 0xFF) : wordIsNaN f = false := by
  rw [wordIsNaN, beq_false_of_ne he, Bool.false_and]

theorem wordIsNaN_of_frac_eq {f : Word} (hm : wordFrac f = 0) : wordIsNaN f = false := by
  rw [wordIsNaN, hm, bne_self_eq_false, Bool.and_false]

/-- The literal widening reads every pattern as a normal one of exponent field `e`. -/
theorem wordMagnitude_h2sLiteral (h : Half) :
    wordMagnitude (h2sLiteral h) = (1024 + (halfFrac h).toNat) * 2 ^ ((halfExp h).toNat + 124) := by
  rw [wordMagnitude_of_exp (wordExp_h2sLiteral_toNat h), wordFrac_h2sLiteral_toNat]
  ring

theorem wordMagnitude_h2sIeee {h : Half} (he : halfExp h = 0) (hm : halfFrac h ≠ 0) :
    wordMagnitude (h2sIeee h) = halfMagnitude h := by
  obtain ⟨-, -, hk⟩ := highestOne_bounds hm
  have hexp : (wordExp (h2sIeee h)).toNat = (102 + highestOne (halfFrac h)) + 1 := by
    rw [wordExp_h2sIeee_toNat he hm]
    omega
  rw [wordMagnitude_of_exp hexp, significand_h2sIeee he hm, halfMagnitude, if_pos he, Nat.mul_assoc, ← Nat.pow_add]
  congr 2
  omega

theorem wordMagnitude_h2sLiteral_of_normal {h : Half} (hn : halfIsNormal h = true) :
    wordMagnitude (h2sLiteral h) = halfMagnitude h := by
  obtain ⟨n, hexp⟩ := Nat.exists_eq_add_of_le' (halfIsNormal_iff.mp hn).1
  rw [wordMagnitude_h2sLiteral, halfMagnitude_of_exp hexp, hexp]
  ring

theorem h2s_of_normal (edge : H2sEdge) {h : Half} (hn : halfIsNormal h = true) : h2s edge h = h2sLiteral h :=
  h2s_eq_literal (.inr (halfIsNormal_iff_ne.mp hn))

/-! ### The narrowing function case by case (40_convert.md R84) -/

section
variable {c : Config} {f : Word}

theorem s2h_nan (he : wordExp f = 0xFF) (hm : wordFrac f ≠ 0) : s2h c f = .error .nan := by
  simp only [s2h, if_pos (And.intro he hm)]

theorem s2h_infinity (he : wordExp f = 0xFF) (hm : wordFrac f = 0) :
    s2h c f = .ok (wordSign f ++ (if c.s2hInf = .clamp then (0x7BFF : BitVec 15) else 0x7C00)) := by
  simp [s2h, he, hm]

theorem s2h_clamp (he : wordExp f ≠ 0xFF) (hmag : 0x477FE000 < wordMag f) :
    s2h c f = .ok (wordSign f ++ (0x7BFF : BitVec 15)) := by
  simp only [s2h, he, false_and, if_false, if_pos hmag]

/-- A magnitude up to 65504.0 is finite. -/
theorem wordExp_ne_of_mag_le (hmag : wordMag f ≤ 0x477FE000) : wordExp f ≠ 0xFF := by
  have hfields := wordMag_toNat f
  bv_omega

/-- Up to 65504.0 nothing is clamped. -/
theorem s2h_of_mag_le (hmag : wordMag f ≤ 0x477FE000) :
    s2h c f =
      if wordMag f = 0 then .ok (wordSign f ++ (if c.s2hZero = .zero then (0 : BitVec 15) else 1))
      else if wordMag f < c.s2hTiny then .ok (wordSign f ++ (1 : BitVec 15))
      else .ok (wordSign f ++ ((f &&& 0x7F800000) - 0x38000000).extractLsb' 23 5 ++
        (wordFrac f).extractLsb' 13 10) := by
  simp only [s2h, wordExp_ne_of_mag_le hmag, false_and, if_false, if_neg (BitVec.not_lt.mpr hmag)]

theorem s2h_zero (hmag : wordMag f = 0) :
    s2h c f = .ok (wordSign f ++ (if c.s2hZero = .zero then (0 : BitVec 15) else 1)) := by
  rw [s2h_of_mag_le (by rw [hmag]; decide), if_pos hmag]

theorem s2h_flush (hmag : wordMag f ≤ 0x477FE000) (hne : wordMag f ≠ 0) (htiny : wordMag f < c.s2hTiny) :
    s2h c f = .ok (wordSign f ++ (1 : BitVec 15)) := by
  rw [s2h_of_mag_le hmag, if_neg hne, if_pos htiny]

theorem and_wordExp_mask (f : Word) : f &&& 0x7F800000 = 0#1 ++ wordExp f ++ 0#23 := by
  have hmask : f &&& (0#1 ++ BitVec.allOnes 8 ++ 0#23) = 0#1 ++ wordExp f ++ 0#23 := by
    conv_lhs => rw [← append_word_fields f, BitVec.and_append, BitVec.and_append]
    simp only [BitVec.and_allOnes, BitVec.and_zero]
  exact hmask

/-- Subtracting 0x38000000 from the exponent field in place takes 112 from it, modulo 32 in the five bits kept. -/
theorem rebias_exponent (e : BitVec 8) :
    ((0#1 ++ e ++ 0#23) - 0x38000000).extractLsb' 23 5 = (e - 112).extractLsb' 0 5 := by
  revert e; decide

theorem s2h_rebias (hmag : wordMag f ≤ 0x477FE000) (hne : wordMag f ≠ 0) (htiny : c.s2hTiny ≤ wordMag f) :
    s2h c f = .ok (wordSign f ++ (wordExp f - 112).extractLsb' 0 5 ++ (wordFrac f).extractLsb' 13 10) := by
  rw [s2h_of_mag_le hmag, if_neg hne, if_neg (BitVec.not_lt.mpr htiny), and_wordExp_mask, rebias_exponent]

/-- Every result of the narrowing is the operand's sign before fifteen bits. -/
theorem halfSign_of_s2h {r : Half} (h : s2h c f = .ok r) : halfSign r = wordSign f := by
  unfold s2h at h
  simp only at h
  split_ifs at h <;> cases h <;> simp only [halfSign_append_magnitude, halfSign_append]

end


/-! ### The narrowing in the range of normal binary16 numbers (40_convert.md R84, R85) -/

/-- Magnitudes from 2^-14 to 65504.0 have exponent fields 113 to 142. -/
theorem wordExp_of_mag_range {f : Word} (hlo : 0x38800000 ≤ wordMag f) (hhi : wordMag f ≤ 0x477FE000) :
    113 ≤ (wordExp f).toNat ∧ (wordExp f).toNat ≤ 142 := by
  have hfields := wordMag_toNat f
  have hfrac := (wordFrac f).isLt
  bv_omega

theorem rebias_toNat {e : BitVec 8} (hlo : 113 ≤ e.toNat) (hhi : e.toNat ≤ 142) :
    ((e - 112).extractLsb' 0 5).toNat = e.toNat - 112 := by
  rw [BitVec.extractLsb'_toNat, Nat.shiftRight_zero]
  bv_omega

theorem truncate_toNat (m : BitVec 23) : (m.extractLsb' 13 10).toNat = m.toNat / 2 ^ 13 := by
  rw [BitVec.extractLsb'_toNat, Nat.shiftRight_eq_div_pow]
  have hm := m.isLt
  omega

/-- The literal widening of a normal pattern lies from 2^-14 to 65504.0. -/
theorem wordMag_h2sLiteral_range {h : Half} (hn : halfIsNormal h = true) :
    0x38800000 ≤ wordMag (h2sLiteral h) ∧ wordMag (h2sLiteral h) ≤ 0x477FE000 := by
  obtain ⟨hlo, hhi⟩ := halfIsNormal_iff.mp hn
  have hmag := wordMag_toNat (h2sLiteral h)
  rw [wordExp_h2sLiteral_toNat, wordFrac_h2sLiteral_toNat] at hmag
  have hm := (halfFrac h).isLt
  bv_omega

/-- Re-biasing gives back the exponent field of a normal pattern. -/
theorem rebias_h2sLiteral {h : Half} (hn : halfIsNormal h = true) :
    (wordExp (h2sLiteral h) - 112).extractLsb' 0 5 = halfExp h := by
  obtain ⟨hlo, hhi⟩ := halfIsNormal_iff.mp hn
  have hexp := wordExp_h2sLiteral_toNat h
  apply BitVec.eq_of_toNat_eq
  rw [rebias_toNat (by omega) (by omega), hexp, Nat.add_sub_cancel]

/-- Dropping thirteen fraction bits takes less than one unit in the last place, at every exponent. -/
theorem truncated_magnitude_bounds (m k : Nat) :
    (1024 + m / 2 ^ 13) * 2 ^ k * 2 ^ 125 ≤ (2 ^ 23 + m) * 2 ^ (k + 112) ∧
    (2 ^ 23 + m) * 2 ^ (k + 112) < (1024 + m / 2 ^ 13) * 2 ^ k * 2 ^ 125 + 2 ^ k * 2 ^ 125 := by
  have hresult : (1024 + m / 2 ^ 13) * 2 ^ k * 2 ^ 125 = (1024 + m / 2 ^ 13) * 2 ^ 13 * 2 ^ (k + 112) := by ring
  have hnext : (1024 + m / 2 ^ 13) * 2 ^ 13 * 2 ^ (k + 112) + 2 ^ k * 2 ^ 125 =
      ((1024 + m / 2 ^ 13) * 2 ^ 13 + 2 ^ 13) * 2 ^ (k + 112) := by ring
  rw [hresult, hnext]
  exact ⟨Nat.mul_le_mul_right _ (by omega), Nat.mul_lt_mul_of_pos_right (by omega) (Nat.two_pow_pos _)⟩

/-! ### The two commands (40_convert.md R80, R83) -/

theorem execCvtS2h_of_error {s : State} {e : CmdError} (hhas : s.cfg.hasS2h = true)
    (hconv : s2h s.cfg s.arg = .error e) : exec .cvtS2h s = .next (s.raise e) := by
  simp only [exec, execCvtS2h, State.argOperand, hhas, hconv, if_true]

theorem execCvtS2h_of_ok {s : State} {r : Half} (hhas : s.cfg.hasS2h = true) (hconv : s2h s.cfg s.arg = .ok r) :
    exec .cvtS2h s = .next { s with res := r.zeroExtend 32, err := 0 } := by
  simp only [exec, execCvtS2h, State.argOperand, hhas, hconv, if_true]
  rfl

/-- A word whose `OP` spells a command that it does not encode has an unused bit set (30_encoding.md R65). -/
theorem execute_rsvbits {v : Word} {s : State} {op : Opcode} (hop : opcodeOf s.cfg.hasS2h (opField v) = some op)
    (hv : ∀ i : Instr, i.opcode = op → encode i ≠ v) : execute v s = .next (s.raise .rsvbits) := by
  obtain ⟨hnone, -⟩ | ⟨_, -, -, hdec⟩ | ⟨op', hop', -, -, hdec⟩ := decode_cases s.cfg.hasS2h v
  · cases hnone.symm.trans hop
  · exact execute_of_decode_error hdec
  · cases hop'.symm.trans hop
    exact absurd (encode_of_decode_ok hdec) (hv _ (opcode_instr op v))

end Sys2Proof.Machine

open Sys2Proof Sys2Proof.Machine

/-- Settles O22: the word is the command's encoding, whose `RSV` field is 0. -/
theorem cvtH2sWidensImmediate : Obligations.CvtH2sWidensImmediate := by
  intro s
  have hword (h : Half) : execute (0x10000000 ||| h.zeroExtend 32) s = exec (.cvtH2s h) s := execute_encode (.cvtH2s h) s
  refine ⟨fun _ => rfl, hword, fun v hop hrsv => ?_, ?_⟩
  · refine execute_rsvbits (op := .cvtH2s) (by rw [hop]; rfl) fun i _ hv => hrsv ?_
    rw [← hv, rsvField_encode]
  · have hone : h2s s.cfg.h2sEdge 0x3C00 = 0x3F800000 := by cases s.cfg.h2sEdge <;> rfl
    rw [← hone]
    exact hword 0x3C00

/-- Settles O23, from the four special patterns and the fields of the literal widening. -/
theorem wideningFunction : Obligations.WideningFunction := by
  refine ⟨fun _ => ⟨rfl, rfl, rfl, rfl⟩, fun h hs => ?_⟩
  have hlit : h2s .literal h = h2sLiteral h := by
    rw [h2s_of_not_special hs, if_neg (fun hieee => nomatch hieee.1)]
  constructor
  · rw [h2s_of_not_special hs, hlit]
    simp only [true_and]
  · rw [hlit, h2sLiteral_eq]
    exact (append_fraction_zeros _ _ _).symm

/-- Settles O24: the model's search finds the highest 1 bit. -/
theorem ieeeWideningOfSubnormalsAndNans : Obligations.IeeeWideningOfSubnormalsAndNans := by
  intro h
  constructor
  · intro k he hbit hmax
    have hm : halfFrac h ≠ 0 := fun hz => by simp [hz] at hbit
    rw [h2s_ieee_eq hm (.inl he), h2sIeee_subnormal he, highestOne_eq hbit hmax]
  · intro he hm
    rw [h2s_ieee_eq hm (.inr he), h2sIeee_nan (by rw [he]; decide)]
    exact (append_fraction_zeros _ _ _).symm

/-- Settles O25, by the class of the pattern: zero, subnormal or normal. -/
theorem ieeeWideningKeepsEveryFiniteValue : Obligations.IeeeWideningKeepsEveryFiniteValue := by
  intro h hfin
  suffices hmag : wordMagnitude (h2s .ieee h) = halfMagnitude h ∧ wordExp (h2s .ieee h) ≠ 0xFF from
    ⟨hmag.1, wordSign_h2s _ h, hmag.2⟩
  by_cases he : halfExp h = 0
  · by_cases hm : halfFrac h = 0
    · rw [h2s_zero _ hm he]
      simp [wordMagnitude, halfMagnitude, he, hm]
    · rw [h2s_ieee_eq hm (.inl he)]
      have hexp := wordExp_h2sIeee_toNat he hm
      obtain ⟨-, -, hk⟩ := highestOne_bounds hm
      exact ⟨wordMagnitude_h2sIeee he hm, by bv_omega⟩
  · rw [h2s_eq_literal (.inr ⟨he, hfin⟩)]
    exact ⟨wordMagnitude_h2sLiteral_of_normal (halfIsNormal_iff_ne.mpr ⟨he, hfin⟩), wordExp_h2sLiteral_ne h⟩

/-- Settles O26: a normal pattern is widened literally under both settings. -/
theorem normalWideningIsExact : Obligations.NormalWideningIsExact := by
  intro edge h hn
  rw [h2s_of_normal edge hn, h2s_of_normal .literal hn]
  exact ⟨rfl, wordMagnitude_h2sLiteral_of_normal hn, wordSign_h2sLiteral h, wordExp_h2sLiteral_toNat h⟩

/-- Settles O27: the literal widening reads a subnormal and a NaN as normal patterns of exponent field 0 and 31. -/
theorem literalWideningOfEdgeClasses : Obligations.LiteralWideningOfEdgeClasses := by
  intro h
  refine ⟨fun he hm => ?_, fun he hm => ?_, ?_⟩
  · rw [h2s_eq_literal (.inl ⟨rfl, hm⟩), wordMagnitude_h2sLiteral, he]
    rfl
  · rw [h2s_eq_literal (.inl ⟨rfl, hm⟩), wordMagnitude_h2sLiteral, he]
    rfl
  · rw [h2s_eq, if_neg (show ¬(H2sEdge.literal = .ieee ∧ _) from fun hieee => nomatch hieee.1)]
    split_ifs
    · exact wordIsNaN_of_exp_ne (by rw [wordExp_append]; decide)
    · exact wordIsNaN_of_frac_eq (wordFrac_append _ _ _)
    · exact wordIsNaN_of_exp_ne (wordExp_h2sLiteral_ne h)

/-- Settles O28: both functions put the operand's sign before the rest of the result. -/
theorem conversionsKeepSign : Obligations.ConversionsKeepSign :=
  ⟨wordSign_h2s, fun _ _ _ => halfSign_of_s2h⟩

/-- Settles O29: a malformed word is not the command's encoding, and the narrowing fails only on a NaN. -/
theorem cvtS2hNarrowsArg : Obligations.CvtS2hNarrowsArg := by
  intro s
  have hword : execute 0x20000000 s = exec .cvtS2h s := execute_encode .cvtS2h s
  refine ⟨fun hhas => ?_, fun hhas => ⟨hword, fun v hop hv => ?_, fun hnan => ?_, fun hnum => ?_, fun harg htiny => ?_⟩⟩
  · have hillop : exec .cvtS2h s = .next { s with err := 1, estk := true } := by
      simp only [exec, execCvtS2h, hhas]
      rfl
    exact ⟨hword.trans hillop, hillop⟩
  · refine execute_rsvbits (op := .cvtS2h) (by rw [hop, hhas]; rfl) fun i hi henc => hv ?_
    cases i <;> cases hi
    exact henc.symm
  · exact execCvtS2h_of_error hhas (s2h_nan hnan.1 hnan.2)
  · cases hconv : s2h s.cfg s.arg with
    | error e =>
      obtain ⟨he, hm⟩ := nan_of_s2h_error hconv
      exact (hnum.elim (· he) hm).elim
    | ok r => exact ⟨r, rfl, execCvtS2h_of_ok hhas hconv⟩
  · refine execCvtS2h_of_ok (r := 0x3C00) hhas ?_
    rw [harg, s2h_rebias (by decide) (by decide) (by rw [htiny]; decide)]
    rfl

/-- Settles O30, case by case; a binary32 subnormal's magnitude is its fraction, which is below 0x00800000. -/
theorem narrowingFunction : Obligations.NarrowingFunction := by
  intro c f
  refine ⟨⟨nan_of_s2h_error, fun hnan => s2h_nan hnan.1 hnan.2⟩, fun he hm => ?_, s2h_clamp, fun hmag => ?_, s2h_flush,
    s2h_rebias, fun he hm htiny => ?_⟩
  · rw [s2h_infinity he hm]
    cases c.s2hInf <;> rfl
  · rw [s2h_zero hmag]
    cases c.s2hZero <;> rfl
  · have hfields := wordMag_toNat f
    have hfrac := (wordFrac f).isLt
    exact s2h_flush (by bv_omega) (by bv_omega) (by bv_omega)

/-- Settles O31: with exponent field `k + 113` the result is normal, of exponent field `k + 1`, and its fraction is the
operand's without the last thirteen bits. -/
theorem narrowingTruncatesTowardZero : Obligations.NarrowingTruncatesTowardZero := by
  intro c f hlo hhi htiny
  obtain ⟨hmin, hmax⟩ := wordExp_of_mag_range hlo hhi
  obtain ⟨k, hk⟩ := Nat.exists_eq_add_of_le' hmin
  have hne : wordMag f ≠ 0 := by bv_omega
  refine ⟨_, s2h_rebias hhi hne htiny, ?_⟩
  generalize hr : wordSign f ++ (wordExp f - 112).extractLsb' 0 5 ++ (wordFrac f).extractLsb' 13 10 = r
  have hexp : (halfExp r).toNat = k + 1 := by
    rw [← hr, halfExp_append, rebias_toNat hmin hmax, hk]
    omega
  have hfrac : (halfFrac r).toNat = (wordFrac f).toNat / 2 ^ 13 := by
    rw [← hr, halfFrac_append, truncate_toNat]
  refine ⟨halfIsNormal_iff.mpr (by omega), ?_⟩
  rw [halfMagnitude_of_exp hexp, wordMagnitude_of_exp (n := k + 112) hk, hexp, hfrac, Nat.add_sub_cancel]
  exact truncated_magnitude_bounds _ _

/-- Settles O32: the widened pattern lies in the range that is re-biased, field by field. -/
theorem normalPatternsRoundTrip : Obligations.NormalPatternsRoundTrip := by
  intro c h hn htiny
  obtain ⟨hlo, hhi⟩ := wordMag_h2sLiteral_range hn
  have hne : wordMag (h2sLiteral h) ≠ 0 := by bv_omega
  rw [h2s_of_normal _ hn, s2h_rebias hhi hne (BitVec.le_trans htiny hlo), wordSign_h2sLiteral,
    rebias_h2sLiteral hn, wordFrac_h2sLiteral, BitVec.extractLsb'_append_eq_left, append_half_fields]

/-- Settles O33, by running both conversions on each row. -/
theorem roundTripTable : Obligations.RoundTripTable := by
  intro row hrow
  simp only [List.mem_cons, List.not_mem_nil, or_false] at hrow
  obtain rfl | rfl | rfl | rfl | rfl | rfl := hrow
  all_goals exact ⟨rfl, rfl, rfl⟩
end

