-- ==== Sys2Proof/Proofs/Checksum.lean ====
section
/-! SUPPORT. The proofs of the statements of 41_checksum.md: the three checksum commands and their malformed words, the
accumulator after a clear, and what the checksum of a byte sequence tells apart. -/

namespace Sys2Proof

theorem immBits_of_noImm {i : Instr} (hform : i.opcode.form = .noImm) : i.immBits = 0 := by
  cases i <;> cases hform <;> rfl

end Sys2Proof

namespace Sys2Proof.Machine

open Sys2Proof

/-! ### Malformed words (30_encoding.md R64) -/

/-- A command without an immediate has one word: every other word of its opcode raises `RSVBITS`. -/
theorem execute_rsvbits_noImm {v : Word} {s : State} {op : Opcode} (hform : op.form = .noImm)
    (hop : opcodeOf s.cfg.hasS2h (opField v) = some op) (hv : v ≠ op.matchBits) :
    execute v s = .next (s.raise .rsvbits) := by
  refine execute_rsvbits hop fun i hi henc => hv ?_
  subst hi
  rw [← henc, encode, immBits_of_noImm hform]
  exact BitVec.or_zero

/-- A word of a command with a byte immediate raises `RSVBITS` where `RSV` or `IMM[15:8]` is not 0. -/
theorem execute_rsvbits_byte {v : Word} {s : State} {op : Opcode} (hform : op.form = .b8)
    (hop : opcodeOf s.cfg.hasS2h (opField v) = some op) (hv : rsvField v ≠ 0 ∨ immHi v ≠ 0) :
    execute v s = .next (s.raise .rsvbits) := by
  refine execute_rsvbits hop fun i hi henc => ?_
  have himm := immOk_encode i
  rw [hi, hform, henc] at himm
  exact hv.elim (· (henc ▸ rsvField_encode i)) (· (beq_iff_eq.mp himm))

/-! ### The accumulator after a clear (41_checksum.md R90, 42_stream.md R101) -/

theorem exec_acc_of_clearsAcc {i : Instr} {s t : State} (hi : clearsAcc i = true) (h : exec i s = .next t) :
    t.acc = 0 := by
  cases i
  case ckClr | plStart => cases h; rfl
  all_goals cases hi

/-! ### The checksum of a byte sequence (41_checksum.md R93) -/

/-- Replacing a byte adds the new one to the checksum and takes the old one away. -/
theorem checksum_set_add {p : List Byte} {i : Nat} (hi : i < p.length) (b : Byte) :
    checksum (p.set i b) + p[i] = checksum p + b := by
  induction p generalizing i with
  | nil => cases hi
  | cons c p ih =>
    cases i with
    | zero =>
      rw [List.set_cons_zero, List.getElem_cons_zero, checksum_cons, checksum_cons]
      ac_rfl
    | succ i =>
      rw [List.set_cons_succ, List.getElem_cons_succ, checksum_cons, checksum_cons, BitVec.add_assoc,
        ih (Nat.lt_of_succ_lt_succ hi), BitVec.add_assoc]

end Sys2Proof.Machine

open Sys2Proof Sys2Proof.Machine

/-- Settles O37: each command adds to `ACC` the byte it carries, by induction on the sequence; a clearing command before
it sets `ACC` to 0. -/
theorem accumulatorHoldsChecksum : Obligations.AccumulatorHoldsChecksum := by
  intro s is rest hr hkeep
  refine ⟨fun hacc hq => ?_, fun i₀ hclear hq => ?_⟩
  · obtain ⟨t, hrun, hpend, -, -, htacc⟩ := run_cmdWrites_acc hr hkeep hq
    exact ⟨t, hrun, hpend, by rw [htacc, hacc, zero_add]⟩
  · obtain ⟨u, hstep, hexec, hupend, hucfg, hur⟩ := step_cmdWrite_next hq hr
    have huacc : u.acc = 0 := exec_acc_of_clearsAcc hclear hexec
    obtain ⟨t, hrun, hpend, -, -, htacc⟩ := run_cmdWrites_acc hur hkeep (hucfg ▸ hupend)
    exact ⟨t, (run_next _ s u hstep).trans hrun, hpend, by rw [htacc, huacc, zero_add]⟩

/-- Settles O34: the command has no immediate, so its match is its only word. -/
theorem ckClrClearsAccumulatorAndVerdict : Obligations.CkClrClearsAccumulatorAndVerdict :=
  fun s => ⟨rfl, execute_encode .ckClr s, fun _ hop hv =>
    execute_rsvbits_noImm (op := .ckClr) rfl (by rw [hop]; rfl) hv⟩

/-- Settles O35: the word is the command's encoding, whose `RSV` field and `IMM[15:8]` are 0. -/
theorem ckAccAddsByte : Obligations.CkAccAddsByte := by
  intro s
  have hword (b : Byte) : execute (0x40000000 ||| b.zeroExtend 32) s = exec (.ckAcc b) s := execute_encode (.ckAcc b) s
  refine ⟨fun _ => rfl, hword, fun v hop hv => ?_, fun hacc => ?_⟩
  · exact execute_rsvbits_byte (op := .ckAcc) rfl (by rw [hop]; rfl) hv
  · have hsum : s.acc + 0x02 = 0x01 := by rw [hacc]; rfl
    rw [← hsum]
    exact hword 0x02

/-- Settles O36: the word is the command's encoding, and the verdict is the comparison with its byte. -/
theorem ckCmpGivesVerdict : Obligations.CkCmpGivesVerdict := by
  intro s
  have hword (c : Byte) : execute (0x50000000 ||| c.zeroExtend 32) s = exec (.ckCmp c) s := execute_encode (.ckCmp c) s
  have hverdict {c : Byte} {ok : Bool} (hok : (s.acc == c) = ok) :
      execute (0x50000000 ||| c.zeroExtend 32) s = .next { s with ckv := true, ckok := ok, err := 0 } := by
    rw [← hok]
    exact hword c
  refine ⟨fun _ => rfl, hword, fun v hop hv => ?_, fun hacc => ?_⟩
  · exact execute_rsvbits_byte (op := .ckCmp) rfl (by rw [hop]; rfl) hv
  · exact ⟨hverdict (c := 0x3C) (by rw [hacc]; rfl), hverdict (c := 0x3D) (by rw [hacc]; rfl)⟩

/-- Settles O38: the sum of the bytes is the same in every order. -/
theorem checksumIgnoresOrder : Obligations.ChecksumIgnoresOrder :=
  fun _ _ hperm => congrArg (BitVec.ofNat 8) (hperm.map BitVec.toNat).sum_eq

/-- Settles O39: with equal checksums the two bytes would cancel out as equal. -/
theorem singleCorruptionChangesChecksum : Obligations.SingleCorruptionChangesChecksum := by
  intro p i hi b hne heq
  have hadd := checksum_set_add hi b
  rw [heq] at hadd
  exact hne (add_left_cancel hadd).symm
end

