-- ==== Sys2Proof/Proofs/Stream.lean ====
section
/-! SUPPORT. The proofs of the statements of 42_stream.md: the three payload-stream commands and their malformed words,
and a frame fed to the block, one pair of payload bytes at a time. -/

namespace Sys2Proof.Machine

open Sys2Proof

/-! ### The bytes of a pair (42_stream.md R102) -/

theorem exec_plByte_first {s : State} (h : s.latch = none) (b : Byte) :
    exec (.plByte b) s = .next { s with acc := s.acc + b, latch := some b, err := 0 } := by
  rw [exec, execPlByte, pairByte_of_none b (show (s.accumulate b).latch = none from h)]
  rfl

theorem exec_plByte_second {s : State} {hi : Byte} (h : s.latch = some hi) (b : Byte) :
    exec (.plByte b) s = .next
      { s with acc := s.acc + b, res := h2s s.cfg.h2sEdge (hi ++ b), latch := none, cnt := s.cnt + 1, err := 0 } := by
  rw [exec, execPlByte, pairByte_of_some b (show (s.accumulate b).latch = some hi from h)]
  rfl

theorem step_plByte_first {s : State} {b : Byte} {rest : List BusEvent} (hr : s.inReset = false)
    (hlatch : s.latch = none) (hq : s.pending = cmdWrite s.cfg (.plByte b) :: rest) :
    step s = .next { s.take rest with acc := s.acc + b, latch := some b, err := 0 } :=
  (step_cmdWrite hq hr).trans (exec_plByte_first (s := s.take rest) hlatch b)

theorem step_plByte_second {s : State} {hi b : Byte} {rest : List BusEvent} (hr : s.inReset = false)
    (hlatch : s.latch = some hi) (hq : s.pending = cmdWrite s.cfg (.plByte b) :: rest) :
    step s = .next { s.take rest with
      acc := s.acc + b, res := h2s s.cfg.h2sEdge (hi ++ b), latch := none, cnt := s.cnt + 1, err := 0 } :=
  (step_cmdWrite hq hr).trans (exec_plByte_second (s := s.take rest) hlatch b)

/-- The state after a pair of payload bytes that begins with no byte pending, with `rest` on its way. -/
def State.feedPair (s : State) (hi lo : Byte) (rest : List BusEvent) : State :=
  { s.take rest with
    acc := s.acc + hi + lo, res := h2s s.cfg.h2sEdge (hi ++ lo), latch := none, cnt := s.cnt + 1, err := 0 }

theorem run_plByte_pair {s : State} {hi lo : Byte} {rest : List BusEvent} (hr : s.inReset = false)
    (hlatch : s.latch = none)
    (hq : s.pending = cmdWrite s.cfg (.plByte hi) :: cmdWrite s.cfg (.plByte lo) :: rest) :
    run 2 s = .next (s.feedPair hi lo rest) :=
  run_two (step_plByte_first hr hlatch hq) (step_plByte_second hr rfl rfl)

/-! ### `RES` over a payload (42_stream.md R104) -/

/-- The payload `p` takes `RES` from `before` to `after`: to its last whole pair, widened, if it has a pair. -/
def LastPairWidened (edge : H2sEdge) (p : List Byte) (before after : Word) : Prop :=
  (p.length < 2 → after = before) ∧
  ∀ (i : Nat) (h : p.length / 2 = i + 1), after = h2s edge (p[2 * i] ++ p[2 * i + 1])

theorem lastPairWidened_of_short {edge : H2sEdge} {p : List Byte} (h : p.length < 2) (v : Word) :
    LastPairWidened edge p v v :=
  ⟨fun _ => rfl, fun i hi => by omega⟩

/-- A pair before the others counts only where there are no others. -/
theorem LastPairWidened.cons_cons {edge : H2sEdge} {hi lo : Byte} {p : List Byte} {before after : Word}
    (h : LastPairWidened edge p (h2s edge (hi ++ lo)) after) :
    LastPairWidened edge (hi :: lo :: p) before after := by
  obtain ⟨hshort, hpair⟩ := h
  refine ⟨fun hlen => by simp at hlen, fun i hi => ?_⟩
  rw [List.length_cons, List.length_cons] at hi
  cases i with
  | zero => exact hshort (by omega)
  | succ i => exact hpair i (by omega)

/-- Payload bytes that begin with no byte pending run to their end, count their pairs and widen the last one. -/
theorem run_plBytes {p : List Byte} {s : State} {rest : List BusEvent} (hr : s.inReset = false)
    (hlatch : s.latch = none) (hq : s.pending = (p.map .plByte).map (cmdWrite s.cfg) ++ rest) :
    ∃ t, run p.length s = .next t ∧ t.pending = rest ∧ t.cfg = s.cfg ∧ t.inReset = false ∧
      t.cnt = s.cnt + BitVec.ofNat 16 (p.length / 2) ∧ LastPairWidened s.cfg.h2sEdge p s.res t.res := by
  induction p using List.twoStepInduction generalizing s with
  | nil => exact ⟨s, rfl, hq, rfl, hr, (BitVec.add_zero _).symm, lastPairWidened_of_short (by simp) _⟩
  | singleton b =>
    exact ⟨_, run_next 0 s _ (step_plByte_first hr hlatch hq), rfl, rfl, hr, by simp,
      lastPairWidened_of_short (by simp) _⟩
  | cons_cons hi lo p ih _ =>
    obtain ⟨t, hrun, hpend, hcfg, htr, hcnt, hres⟩ :=
      ih (s := s.feedPair hi lo ((p.map .plByte).map (cmdWrite s.cfg) ++ rest)) hr rfl rfl
    have hlen : (hi :: lo :: p).length = 2 + p.length := Nat.add_comm _ 2
    refine ⟨t, ?_, hpend, hcfg, htr, ?_, hres.cons_cons⟩
    · rw [hlen]
      exact (run_add 2 p.length s _ (run_plByte_pair hr hlatch hq)).trans hrun
    · have hpairs : (hi :: lo :: p).length / 2 = 1 + p.length / 2 := by omega
      rw [hpairs, BitVec.ofNat_add, ← BitVec.add_assoc]
      exact hcnt

/-- A frame fed as far as the payload bytes `q`, with the bytes `q'` still to come. -/
theorem run_feedFrame_payload {s : State} {q q' : List Byte} {c : Byte} {rest : List BusEvent}
    (hr : s.inReset = false) (hq : s.pending = feedFrame s.cfg (q ++ q') c ++ rest) :
    ∃ t, run (q.length + 1) s = .next t ∧
      t.pending = (q'.map .plByte).map (cmdWrite t.cfg) ++ cmdWrite t.cfg (.plEnd c) :: rest ∧ t.inReset = false ∧
      t.cnt = BitVec.ofNat 16 (q.length / 2) ∧ LastPairWidened s.cfg.h2sEdge q s.res t.res := by
  simp only [feedFrame_eq, List.cons_append, List.map_append, List.append_assoc, List.nil_append] at hq
  obtain ⟨u, hstart, hexec, hupend, -, hur⟩ := step_cmdWrite_next hq hr
  cases hexec
  obtain ⟨t, hrun, hpend, hcfg, htr, hcnt, hres⟩ := run_plBytes (p := q) hur rfl hupend
  refine ⟨t, (run_next _ s _ hstart).trans hrun, ?_, htr, ?_, hres⟩
  · rw [hpend, hcfg]
    rfl
  · rw [hcnt]
    exact BitVec.zero_add _

end Sys2Proof.Machine

open Sys2Proof Sys2Proof.Machine

/-- Settles O43: the frame as far as a given byte gives `RES` and `CNT`, and the whole frame gives the sum and the
verdict. -/
theorem frameLaw : Obligations.FrameLaw := by
  intro s p c rest hr hq
  obtain ⟨v, hbytes, hvpend, hvr, hvcnt, hkept, hpair⟩ :=
    run_feedFrame_payload (q := p) (q' := []) (c := c) (rest := rest) hr (by rwa [List.append_nil])
  refine ⟨?_, fun i hi => ?_, fun hlen => ⟨v, hbytes, ?_⟩, fun hlen => ⟨v, hbytes, hkept hlen⟩⟩
  · obtain ⟨t, hrun, hpend, hacc, hckv, hckok⟩ := run_feedFrame hr hq
    have hend : run (p.length + 2) s = .next _ :=
      (run_add (p.length + 1) 1 s v hbytes).trans (run_next 0 v _ (step_cmdWrite hvpend hvr))
    cases hend.symm.trans hrun
    refine ⟨_, hrun, hpend, hacc, hckv, by rw [hckok, beq_iff_eq], ?_, rfl⟩
    exact (congrArg BitVec.toNat hvcnt).trans (BitVec.toNat_ofNat _ _)
  · have hlen : (p.take (2 * i + 2)).length = 2 * i + 2 := by rw [List.length_take]; omega
    obtain ⟨t, hrun, -, -, -, -, hres⟩ :=
      run_feedFrame_payload (q := p.take (2 * i + 2)) (q' := p.drop (2 * i + 2)) hr (by rwa [List.take_append_drop])
    rw [hlen] at hrun
    exact ⟨t, hrun, by simpa using hres i (by omega)⟩
  · obtain ⟨i, hi⟩ : ∃ i, p.length / 2 = i + 1 := Nat.exists_eq_add_of_le' (by omega)
    simpa [hi, Nat.mul_add] using hpair i hi

/-- Settles O40: the command has no immediate, so its match is its only word. -/
theorem plStartStartsFrame : Obligations.PlStartStartsFrame :=
  fun s => ⟨rfl, execute_encode .plStart s, fun _ hop hv =>
    execute_rsvbits_noImm (op := .plStart) rfl (by rw [hop]; rfl) hv⟩

/-- Settles O41: the word is the command's encoding; the example's byte adds 0 to `ACC` and completes 1.0. -/
theorem plByteSumsAndPairs : Obligations.PlByteSumsAndPairs := by
  intro s
  have hword (b : Byte) : execute (0x70000000 ||| b.zeroExtend 32) s = exec (.plByte b) s :=
    execute_encode (.plByte b) s
  refine ⟨fun b h => exec_plByte_first h b, fun _ b h => exec_plByte_second h b, hword, fun v hop hv => ?_,
    fun hlatch => ?_⟩
  · exact execute_rsvbits_byte (op := .plByte) rfl (by rw [hop]; rfl) hv
  · have hone : h2s s.cfg.h2sEdge ((0x3C : Byte) ++ (0x00 : Byte)) = 0x3F800000 := by cases s.cfg.h2sEdge <;> rfl
    have hexec := exec_plByte_second hlatch 0x00
    rw [hone, add_zero] at hexec
    exact (hword 0x00).trans hexec

/-- Settles O42: the word is the command's encoding, and the verdict is the comparison with its byte. -/
theorem plEndChecksAndDrops : Obligations.PlEndChecksAndDrops := by
  intro s
  have hword (c : Byte) : execute (0x80000000 ||| c.zeroExtend 32) s = exec (.plEnd c) s := execute_encode (.plEnd c) s
  have hverdict {c : Byte} {ok : Bool} (hok : (s.acc == c) = ok) :
      execute (0x80000000 ||| c.zeroExtend 32) s =
        .next { s with ckv := true, ckok := ok, latch := none, err := 0 } := by
    rw [← hok]
    exact hword c
  refine ⟨fun _ => rfl, hword, fun v hop hv => ?_, fun hacc => ?_⟩
  · exact execute_rsvbits_byte (op := .plEnd) rfl (by rw [hop]; rfl) hv
  · exact ⟨hverdict (c := 0x3C) (by rw [hacc]; rfl), hverdict (c := 0x3D) (by rw [hacc]; rfl)⟩
end

