-- ==== Sys2Proof/Proofs/Status.lean ====
section
/-! SUPPORT. The proofs of the statements of 43_status.md: what `ST.CLR` leaves in `STATUS`, the error a word raises,
and a run of words compared with the run of those that raise no error. -/

namespace Sys2Proof.Machine

open Sys2Proof

/-! ### The error a word raises (60_exceptions.md R120 to R125) -/

theorem execute_of_commandError {v : Word} {s : State} {e : CmdError} (h : commandError s.cfg s.arg v = some e) :
    execute v s = .next (s.raise e) := by
  cases hdec : decode s.cfg.hasS2h v with
  | error e' =>
    rw [commandError, hdec] at h
    cases h
    exact execute_of_decode_error hdec
  | ok i =>
    rw [commandError, hdec] at h
    obtain ⟨⟨rfl, hexp, hfrac⟩, he⟩ := Option.ite_none_right_eq_some.mp h
    cases he
    rw [execute_of_decode_ok hdec]
    exact execCvtS2h_of_error (wf_of_decode_ok hdec) (s2h_nan hexp hfrac)

/-- A word without an error leaves `ESTK`, unless it is that of `ST.CLR` (10_state.md R29). -/
theorem execute_estk_of_commandError_none {v : Word} {s t : State} (h : commandError s.cfg s.arg v = none)
    (hv : v ≠ 0x90000000) (ht : execute v s = .next t) : t.estk = s.estk := by
  cases hdec : decode s.cfg.hasS2h v with
  | error e =>
    rw [commandError, hdec] at h
    cases h
  | ok i =>
    rw [execute_of_decode_ok hdec] at ht
    cases hs : s.estk <;> cases htk : t.estk
    case false.true => cases h.symm.trans (commandError_of_exec_sets_estk hdec ht hs htk)
    case true.false =>
      have hi := opcode_of_exec_clears_estk ht hs htk
      have henc := encode_of_decode_ok hdec
      cases i <;> cases hi
      exact absurd henc.symm hv
    all_goals rfl

/-- `ESTK` after a word other than that of `ST.CLR`: it was set before, or the word failed. -/
theorem execute_estk {v : Word} {s t : State} (hv : v ≠ 0x90000000) (ht : execute v s = .next t) :
    t.estk = (s.estk || (commandError s.cfg s.arg v).isSome) := by
  cases h : commandError s.cfg s.arg v with
  | none => rw [execute_estk_of_commandError_none h hv ht, Option.isSome_none, Bool.or_false]
  | some e =>
    cases (execute_of_commandError h).symm.trans ht
    exact (Bool.or_true _).symm

theorem execute_arg {v : Word} {s t : State} (ht : execute v s = .next t) : t.arg = s.arg := by
  cases hdec : decode s.cfg.hasS2h v with
  | error e => cases (execute_of_decode_error hdec).symm.trans ht; rfl
  | ok i =>
    obtain ⟨-, -, -, harg, -⟩ := commandsWriteOnlyTheirWriteSet i s t (execute_of_decode_ok hdec ▸ ht)
    exact harg

/-- A word at the head of the queue is executed: the step takes it off and keeps the parameters, the reset line and
`ARG`. -/
theorem step_cmdWordWrite_next {s : State} {v : Word} {rest : List BusEvent} (hr : s.inReset = false)
    (hq : s.pending = cmdWordWrite s.cfg v :: rest) :
    ∃ t, step s = .next t ∧ execute v (s.take rest) = .next t ∧ t.inReset = false ∧ t.pending = rest ∧
      t.cfg = s.cfg ∧ t.arg = s.arg := by
  obtain ⟨t, ht, hset⟩ := execute_sameSetting v (s.take rest)
  exact ⟨t, (step_cmdWordWrite s v rest hq hr).trans ht, ht, hset.inReset.trans hr, hset.pending, hset.cfg,
    execute_arg (s := s.take rest) ht⟩

/-! ### States that differ in the error report alone (43_status.md R111) -/

/-- The parameters and every element but `ERR` and `ESTK` are the same. -/
structure State.SameData (s t : State) : Prop where
  cfg   : s.cfg = t.cfg
  acc   : s.acc = t.acc
  cnt   : s.cnt = t.cnt
  res   : s.res = t.res
  arg   : s.arg = t.arg
  latch : s.latch = t.latch
  ckv   : s.ckv = t.ckv
  ckok  : s.ckok = t.ckok

theorem State.SameData.take {s t : State} (h : s.SameData t) (q q' : List BusEvent) :
    (s.take q).SameData (t.take q') :=
  ⟨h.cfg, h.acc, h.cnt, h.res, h.arg, h.latch, h.ckv, h.ckok⟩

/-- A failed word changes the error report alone (60_exceptions.md R127). -/
theorem State.SameData.raise_left {s t : State} (h : s.SameData t) (rest : List BusEvent) (e : CmdError) :
    ((s.take rest).raise e).SameData t :=
  ⟨h.cfg, h.acc, h.cnt, h.res, h.arg, h.latch, h.ckv, h.ckok⟩

theorem State.SameData.raise {s t : State} (h : s.SameData t) (e : CmdError) : (s.raise e).SameData (t.raise e) :=
  ⟨h.cfg, h.acc, h.cnt, h.res, h.arg, h.latch, h.ckv, h.ckok⟩

theorem State.SameData.complete {s t : State} (h : s.SameData t) : s.complete.SameData t.complete :=
  ⟨h.cfg, h.acc, h.cnt, h.res, h.arg, h.latch, h.ckv, h.ckok⟩

theorem State.SameData.pairByte {s s' : State} (h : s.SameData s') (b : Byte) :
    (s.pairByte b).SameData (s'.pairByte b) := by
  obtain ⟨hcfg, hacc, hcnt, hres, harg, hlatch, hckv, hckok⟩ := h
  cases hl : s.latch with
  | none =>
    rw [pairByte_of_none b hl, pairByte_of_none b (hlatch ▸ hl)]
    exact ⟨hcfg, hacc, hcnt, hres, harg, rfl, hckv, hckok⟩
  | some hi =>
    rw [pairByte_of_some b hl, pairByte_of_some b (hlatch ▸ hl)]
    constructor <;> simp [*]

/-- No command reads the error report. -/
theorem exec_sameData {i : Instr} {s s' t t' : State} (h : s.SameData s') (ht : exec i s = .next t)
    (ht' : exec i s' = .next t') : t.SameData t' := by
  have ⟨hcfg, hacc, hcnt, hres, harg, hlatch, hckv, hckok⟩ := h
  cases i
  case cvtS2h =>
    obtain ⟨e, hs, hs'⟩ | ⟨v, hs, hs'⟩ := execCvtS2h_congr hcfg harg <;>
      (cases hs.symm.trans ht; cases hs'.symm.trans ht')
    · exact h.raise e
    · exact ⟨hcfg, hacc, hcnt, rfl, harg, hlatch, hckv, hckok⟩
  case plByte b =>
    have hsum : (s.accumulate b).SameData (s'.accumulate b) := by constructor <;> simp [*]
    cases ht; cases ht'
    exact (hsum.pairByte b).complete
  all_goals cases ht; cases ht'; constructor <;> simp [*]

theorem execute_sameData {v : Word} {s s' t t' : State} (h : s.SameData s') (ht : execute v s = .next t)
    (ht' : execute v s' = .next t') : t.SameData t' := by
  cases hdec : decode s.cfg.hasS2h v with
  | error e =>
    cases (execute_of_decode_error hdec).symm.trans ht
    cases (execute_of_decode_error (h.cfg ▸ hdec)).symm.trans ht'
    exact h.raise e
  | ok i => exact exec_sameData h (execute_of_decode_ok hdec ▸ ht) (execute_of_decode_ok (h.cfg ▸ hdec) ▸ ht')

/-! ### A run of words -/

/-- A run of words without that of `ST.CLR` leaves `ESTK` set where it was set before or a word of it failed. -/
theorem run_wordWrites_estk {vs : List Word} {s t : State} (hr : s.inReset = false)
    (hq : s.pending = wordWrites s.cfg vs) (hclr : 0x90000000 ∉ vs) (hrun : run vs.length s = .next t) :
    t.estk = (s.estk || vs.any fun v => (commandError s.cfg s.arg v).isSome) := by
  induction vs generalizing s with
  | nil => cases hrun; exact (Bool.or_false _).symm
  | cons v vs ih =>
    obtain ⟨hv, hvs⟩ := List.ne_and_not_mem_of_not_mem_cons hclr
    obtain ⟨u, hstep, hexec, hur, hupend, hucfg, huarg⟩ := step_cmdWordWrite_next hr hq
    rw [List.length_cons, run_next _ s u hstep] at hrun
    have hestk := ih hur (hucfg ▸ hupend) hvs hrun
    rw [hestk, execute_estk hv.symm hexec, hucfg, huarg, List.any_cons, Bool.or_assoc]
    rfl

/-- From states with the same data, the run of all words and the run of those that raise no error end in states with the
same data. -/
theorem run_successful_sameData {vs : List Word} {s s' : State} (h : s.SameData s') (hr : s.inReset = false)
    (hr' : s'.inReset = false) (hq : s.pending = wordWrites s.cfg vs)
    (hq' : s'.pending = wordWrites s'.cfg (successful s.cfg s.arg vs)) :
    ∃ t t', run vs.length s = .next t ∧ run (successful s.cfg s.arg vs).length s' = .next t' ∧ t.SameData t' := by
  induction vs generalizing s s' with
  | nil => exact ⟨s, s', rfl, rfl, h⟩
  | cons v vs ih =>
    obtain ⟨u, hstep, hexec, hur, hupend, hucfg, huarg⟩ := step_cmdWordWrite_next hr hq
    have hulater : successful u.cfg u.arg vs = successful s.cfg s.arg vs := by rw [hucfg, huarg]
    cases herr : commandError s.cfg s.arg v with
    | some e =>
      have hskip : successful s.cfg s.arg (v :: vs) = successful s.cfg s.arg vs := by simp [successful, herr]
      rw [hskip] at hq' ⊢
      have hu : u.SameData s' := by
        cases (execute_of_commandError (s := s.take _) herr).symm.trans hexec
        exact h.raise_left _ e
      obtain ⟨t, t', hrun, hrun', ht⟩ := ih hu hur hr' (hucfg ▸ hupend) (by rw [hulater]; exact hq')
      exact ⟨t, t', (run_next _ s u hstep).trans hrun, hulater ▸ hrun', ht⟩
    | none =>
      have hkeep : successful s.cfg s.arg (v :: vs) = v :: successful s.cfg s.arg vs := by simp [successful, herr]
      rw [hkeep] at hq' ⊢
      obtain ⟨u', hstep', hexec', hur', hupend', hucfg', -⟩ := step_cmdWordWrite_next hr' hq'
      have hu : u.SameData u' := execute_sameData (h.take _ _) hexec hexec'
      obtain ⟨t, t', hrun, hrun', ht⟩ :=
        ih hu hur hur' (hucfg ▸ hupend) (by rw [hulater, hucfg']; exact hupend')
      exact ⟨t, t', (run_next _ s u hstep).trans hrun, (run_next _ s' u' hstep').trans (hulater ▸ hrun'), ht⟩

/-! ### `STATUS` after `ST.CLR` (43_status.md R110) -/

/-- `ST.CLR` leaves `STATUS` at 0 where no verdict and no pending byte shows. -/
theorem status_clearErrors_eq_zero {s : State} (hckv : s.ckv = false) (hckok : s.ckok = false)
    (hpend : s.pend = false) : s.clearErrors.status = 0 := by
  have hpend' : s.clearErrors.pend = false := hpend
  rw [State.status, hpend', State.clearErrors_estk, State.clearErrors_err, State.clearErrors_ckok,
    State.clearErrors_ckv, hckok, hckv]
  rfl

end Sys2Proof.Machine

open Sys2Proof Sys2Proof.Machine

/-- Settles O46: a failed word leaves the data as it was, and any word takes the same data to the same data. -/
theorem failedCommandsLeaveNoTrace : Obligations.FailedCommandsLeaveNoTrace := by
  intro s vs hr
  have hsame : ({ s with pending := wordWrites s.cfg vs } : State).SameData
      { s with pending := wordWrites s.cfg (successful s.cfg s.arg vs) } := ⟨rfl, rfl, rfl, rfl, rfl, rfl, rfl, rfl⟩
  obtain ⟨t, u, hrun, hrun', -, hacc, hcnt, hres, harg, hlatch, hckv, hckok⟩ :=
    run_successful_sameData hsame hr hr rfl rfl
  refine ⟨t, u, hrun, hrun', hacc, hcnt, hres, harg, hlatch, hckv, hckok, fun hestk hclr => ?_⟩
  rw [run_wordWrites_estk (s := { s with pending := wordWrites s.cfg vs }) hr rfl hclr hrun, hestk, Bool.false_or]

/-- Settles O44: the command has no immediate, so its match is its only word; the example's `STATUS` shows neither a
verdict nor a pending byte. -/
theorem stClrClearsErrorReport : Obligations.StClrClearsErrorReport := by
  intro s
  have hword : execute 0x90000000 s = exec .stClr s := execute_encode .stClr s
  refine ⟨rfl, hword, fun _ hop hv => ?_, fun hstatus => ⟨s.clearErrors, hword, ?_⟩⟩
  · exact execute_rsvbits_noImm (op := .stClr) rfl (by rw [hop]; rfl) hv
  · have hstatus : s.status = 0x00000110 := hstatus
    refine status_clearErrors_eq_zero ?_ ?_ ?_
    · rw [← s.status_ckv, hstatus]; rfl
    · rw [← s.status_ckok, hstatus]; rfl
    · exact (s.status_getLsbD 2).symm.trans (by rw [hstatus]; rfl)
end

section
/-! SUPPORT. The proofs of the statements of 60_exceptions.md: which words raise `RSVBITS`, the code each word leaves in
`ERR`, that errors never stop the block, the idle step, and the instances of a platform. -/

namespace Sys2Proof

/-! ### Unused bits (60_exceptions.md R122) -/

/-- A bit outside the fields of the word's command is not 0: a bit of `RSV`, of `IMM[15:8]` beside a byte operand, or of
`IMM` without an operand (30_encoding.md R64). -/
abbrev UnusedBitSet (v : Word) : Prop :=
  rsvField v ≠ 0 ∨
  (opField v ∈ [(4 : BitVec 4), 5, 7, 8] ∧ immHi v ≠ 0) ∨
  (opField v ∈ [(2 : BitVec 4), 3, 6, 9] ∧ immField v ≠ 0)

theorem opcodeOf_isSome_iff {hasS2h : Bool} {x : BitVec 4} :
    (opcodeOf hasS2h x).isSome = true ↔ 1 ≤ x ∧ x ≤ 9 ∧ (x = 2 → hasS2h = true) := by
  revert hasS2h x; decide

/-- A word of a command has an unused bit set where the decoder's check of the command's form fails. -/
theorem unusedBitSet_iff {v : Word} {op : Opcode} (hop : opField v = opNumber op) :
    UnusedBitSet v ↔ ¬(rsvField v = 0 ∧ op.form.immOk v = true) := by
  rw [UnusedBitSet, hop, not_and_or]
  refine or_congr_right ?_
  cases op <;> simp [opNumber, Opcode.form, Form.immOk]

theorem decode_eq_rsvbits_iff {hasS2h : Bool} {v : Word} :
    decode hasS2h v = .error .rsvbits ↔ (opcodeOf hasS2h (opField v)).isSome = true ∧ UnusedBitSet v := by
  obtain ⟨hnone, hdec⟩ | ⟨op, hsome, hbad, hdec⟩ | ⟨op, hsome, hrsv, himm, hdec⟩ := decode_cases hasS2h v
  · simp [hnone, hdec]
  · have hset := (unusedBitSet_iff (opcodeOf_eq_some_iff.mp hsome).1).mpr hbad
    simp only [hdec, hsome, hset, Option.isSome_some, and_self]
  · have hclear := (unusedBitSet_iff (opcodeOf_eq_some_iff.mp hsome).1).not_left.mpr ⟨hrsv, himm⟩
    simp only [hdec, hclear, and_false, reduceCtorEq]

/-- Of the decoded commands, `CVT.S2H` alone has opcode 2. -/
theorem instr_eq_cvtS2h_iff {op : Opcode} {v : Word} : op.instr v = .cvtS2h ↔ opNumber op = 2 := by
  cases op <;> simp [Opcode.instr, opNumber]

end Sys2Proof

namespace Sys2Proof.Machine

open Sys2Proof

/-! ### The code a word reports (60_exceptions.md R120, R125) -/

theorem errorCode_ne_zero (e : CmdError) : errorCode e ≠ 0 := by
  cases e <;> decide

/-- The value `ERR` takes: the code of the error raised, or 0. -/
def reportedCode : Option CmdError → BitVec 4
  | none   => 0
  | some e => errorCode e

/-- `CVT.S2H`, where it exists, raises no error on an operand that is no NaN. -/
theorem exec_cvtS2h_err {s t : State} (hhas : s.cfg.hasS2h = true)
    (hnum : ¬(wordExp s.arg = 0xFF ∧ wordFrac s.arg ≠ 0)) (ht : exec .cvtS2h s = .next t) : t.err = 0 := by
  obtain ⟨habsent, -⟩ | ⟨-, e, herr, -⟩ | ⟨-, r, -, h⟩ := execCvtS2h_cases s
  · cases habsent.symm.trans hhas
  · exact absurd (nan_of_s2h_error herr) hnum
  · cases h.symm.trans ht; rfl

theorem execute_err {v : Word} {s t : State} (ht : execute v s = .next t) :
    t.err = reportedCode (commandError s.cfg s.arg v) := by
  cases herr : commandError s.cfg s.arg v with
  | some e => cases (execute_of_commandError herr).symm.trans ht; rfl
  | none =>
    cases hdec : decode s.cfg.hasS2h v with
    | error e => simp [commandError, hdec] at herr
    | ok i =>
      rw [execute_of_decode_ok hdec] at ht
      cases i
      case cvtS2h =>
        refine exec_cvtS2h_err (wf_of_decode_ok hdec) (fun ⟨hexp, hfrac⟩ => hfrac ?_) ht
        simpa [commandError, hdec, hexp] using herr
      all_goals cases ht; rfl

/-- `execute_estk` for every word, that of `ST.CLR` too (43_status.md R110). -/
theorem execute_estk_eq {v : Word} {s t : State} (ht : execute v s = .next t) :
    t.estk = (if t.err ≠ 0 then true else if v = 0x90000000 then false else s.estk) := by
  by_cases hv : v = 0x90000000
  · subst hv
    cases (execute_encode .stClr s).symm.trans ht
    rfl
  · rw [execute_estk hv ht, execute_err ht, if_neg hv]
    cases commandError s.cfg s.arg v with
    | none => exact Bool.or_false _
    | some e => rw [reportedCode, if_pos (errorCode_ne_zero e)]; exact Bool.or_true _

/-- The code of a word's error, by the priority of 60_exceptions.md R125. -/
theorem reportedCode_commandError (c : Config) (arg v : Word) :
    reportedCode (commandError c arg v) =
      (if opField v = 0 ∨ 0xA ≤ opField v ∨ (opField v = 2 ∧ c.hasS2h = false) then 1
       else if UnusedBitSet v then 2
       else if opField v = 2 ∧ wordExp arg = 0xFF ∧ wordFrac arg ≠ 0 then 3
       else 0) := by
  simp only [← opcodeOf_eq_none_iff]
  obtain ⟨hnone, hdec⟩ | ⟨op, hsome, hbad, hdec⟩ | ⟨op, hsome, hrsv, himm, hdec⟩ := decode_cases c.hasS2h v <;>
    rw [commandError, hdec]
  · rw [if_pos hnone]; rfl
  · obtain ⟨hop, -⟩ := opcodeOf_eq_some_iff.mp hsome
    rw [if_neg (by simp [hsome]), if_pos ((unusedBitSet_iff hop).mpr hbad)]
    rfl
  · obtain ⟨hop, -⟩ := opcodeOf_eq_some_iff.mp hsome
    rw [if_neg (by simp [hsome]), if_neg ((unusedBitSet_iff hop).not_left.mpr ⟨hrsv, himm⟩), hop]
    simp only [instr_eq_cvtS2h_iff]
    split <;> rfl

/-! ### The instances of a platform (60_exceptions.md R134) -/

/-- A step of an instance puts its own next state in its place; one of an instance that is not there does nothing. -/
theorem stepAt_next {p q : Platform} {k : Nat} (h : p.stepAt k = .next q) :
    (p.blocks[k]? = none ∧ q = p) ∨
    (∃ s t, p.blocks[k]? = some s ∧ step s = .next t ∧ q = ⟨p.blocks.set k t⟩) := by
  unfold Platform.stepAt at h
  split at h
  · next hk => cases h; exact .inl ⟨hk, rfl⟩
  · next s hk =>
    split at h <;> cases h
    next t ht => exact .inr ⟨s, t, hk, ht, rfl⟩

end Sys2Proof.Machine

open Sys2Proof Sys2Proof.Machine

/-- Settles O6: `RSVBITS` is the answer where `OP` spells a command whose form the word does not fit, and an error
writes only `ERR` and `ESTK`. -/
theorem reservedBitsRaiseRsvbits : Obligations.ReservedBitsRaiseRsvbits :=
  fun _ _ => ⟨decode_eq_rsvbits_iff.trans (and_congr_left' opcodeOf_isSome_iff), execute_of_decode_error⟩

/-- Settles O7: `ERR` takes the code of the word's error, which the decoder's checks and then the operand decide. -/
theorem everyCommandWordReportsOneCode : Obligations.EveryCommandWordReportsOneCode := by
  intro s v
  obtain ⟨t, ht, -⟩ := execute_sameSetting v s
  exact ⟨t, ht, (execute_err ht).trans (reportedCode_commandError s.cfg s.arg v), execute_estk_eq ht⟩

/-- Settles O45: every word is executed, and an error is raised from the state that took the event. -/
theorem errorsNeverStopTheBlock : Obligations.ErrorsNeverStopTheBlock := by
  intro s v rest hr hq
  obtain ⟨t, hstep, hexec, htr, hpend, hcfg, -⟩ := step_cmdWordWrite_next hr hq
  refine ⟨t, hstep, htr, hpend, hcfg, fun e he => ?_⟩
  cases (execute_of_commandError (s := s.take rest) he).symm.trans hexec
  rfl

/-- Settles O11, by the rule of the step without an event. -/
theorem idleBlockHoldsState : Obligations.IdleBlockHoldsState :=
  step_nil

/-- Settles O54: a step of an instance sets its own place in the list and no other. -/
theorem instancesShareNoState : Obligations.InstancesShareNoState := by
  intro p q k h
  obtain ⟨hnone, rfl⟩ | ⟨s, t, hsome, hstep, rfl⟩ := stepAt_next h
  · exact ⟨rfl, fun _ _ => rfl, fun s hs => by cases hnone.symm.trans hs⟩
  · have hk : k < p.blocks.length := (List.getElem?_eq_some_iff.mp hsome).1
    refine ⟨List.length_set, fun j hj => List.getElem?_set_ne hj.symm, fun s' hs' => ⟨t, ?_, ?_⟩⟩
    · cases hsome.symm.trans hs'
      exact hstep
    · exact List.getElem?_set_self hk
end

section
/-! SUPPORT. The proofs of the statements of 70_reset_and_hazards.md: the operand written before its conversion, the
reset line, and the commands that lead back to the reset values. -/

namespace Sys2Proof.Machine

open Sys2Proof

/-! ### An operand and its conversion (70_reset_and_hazards.md R145) -/

theorem step_argWrite {s : State} {f : Word} {rest : List BusEvent} (hr : s.inReset = false)
    (hq : s.pending = argWrite s.cfg f :: rest) : step s = .next { s.take rest with arg := f } :=
  step_regWrite (r := .arg) hr hq

/-- `execCvtS2h_of_ok` for the command at the head of the queue. -/
theorem step_cvtS2h_of_ok {s : State} {r : Half} {rest : List BusEvent} (hr : s.inReset = false)
    (hhas : s.cfg.hasS2h = true) (hconv : s2h s.cfg s.arg = .ok r)
    (hq : s.pending = cmdWrite s.cfg .cvtS2h :: rest) :
    step s = .next { s.take rest with res := r.zeroExtend 32, err := 0 } :=
  (step_cmdWrite hq hr).trans (execCvtS2h_of_ok (s := s.take rest) hhas hconv)

/-! ### The reset line (70_reset_and_hazards.md R140) -/

/-- The release of an asserted reset line resets the block. -/
theorem resetLine_release {s : State} (hr : s.inReset = true) : resetLine false s = s.applyReset := by
  simp only [resetLine, hr]

/-- While reset is asserted no access in the window is answered, whatever its width and alignment (log 6). -/
theorem access_inReset {w : Width} {a : Nat} {s : State} {act : Reg → Host.Outcome State Fault Refusal}
    (hr : s.inReset = true) (hlo : s.cfg.base ≤ a) (hhi : a ≤ s.cfg.base + 0x1F) :
    access w a s act = .fault .accessInReset := by
  rw [access, windowOffset_inside hlo hhi]
  exact if_pos hr

/-! ### Back to the reset values by commands (70_reset_and_hazards.md R142) -/

/-- What `PL.START` then `ST.CLR` leaves of the block: all but `RES` and `ARG` of its elements at their reset values,
in the setting of `s`. -/
def State.startThenClear (s : State) : State :=
  { s.applyReset with res := s.res, arg := s.arg, inReset := s.inReset, resp := s.resp }

theorem exec_plStart_stClr (s : State) :
    ∃ t, exec .plStart s = .next t ∧ exec .stClr t = .next s.startThenClear :=
  ⟨s.clearChecksum.clearCount.dropPending.complete, rfl, rfl⟩

end Sys2Proof.Machine

open Sys2Proof Sys2Proof.Machine

/-- Settles O18: the write leaves the operand in `ARG`, where the command of the next step takes it. -/
theorem operandWrittenFirstIsConverted : Obligations.OperandWrittenFirstIsConverted := by
  intro s f r rest hr hhas hconv hq
  exact run_two (step_argWrite hr hq) (step_cvtS2h_of_ok hr hhas hconv rfl)

/-- Settles O20: a change of the line is always served, and an access in the window never while reset is asserted. -/
theorem resetLineResetsBlock : Obligations.ResetLineResetsBlock := by
  intro s rest
  refine ⟨step_cons s _ rest, fun hr hq => ?_, fun w a v hr hlo hhi hq => ?_⟩
  · rw [step_cons s _ rest hq, serve, resetLine_release (s := s.take rest) hr]
    rfl
  · obtain ⟨act, hstep, -⟩ := step_access hq
    exact hstep.trans (access_inReset (s := s.take rest) hr hlo hhi)

/-- Settles O21: the state the two commands give is the one the release of reset gives, with `RES` and `ARG` kept. -/
theorem startThenStatusClearIsReset : Obligations.StartThenStatusClearIsReset := by
  intro s
  obtain ⟨t, hstart, hclear⟩ := exec_plStart_stClr s
  rw [resetLine_release (s := { s with inReset := true }) rfl]
  exact ⟨t, s.startThenClear, hstart, hclear, rfl, rfl, rfl, rfl, rfl⟩
end
